-- ==== Sys2Proof/Word.lean ====
section
/-! DEFINITION. The word types of the block: registers and sequence words, coefficient words, frame bytes. -/

namespace Sys2Proof

/-- A register or a sequence word: 32 bits, unsigned (00_scope.md R12; 10_state.md R22, R41). -/
abbrev Word := BitVec 32

/-- A coefficient word: 16 bits, two's complement (10_state.md R40; 30_encoding.md R98). -/
abbrev Coef := BitVec 16

/-- A frame-buffer byte (10_state.md R42). -/
abbrev Byte := BitVec 8

end Sys2Proof
end

