-- ==== Sys2Proof/Config.lean ====
section
/-! DEFINITION. What is fixed for one instance of the block: the constants of the spec, the two storage capacities it leaves
to the implementation, and the uninterpreted contents of storage locations that nothing has written. -/

namespace Sys2Proof

/-- The storage capacities of an instance, open in the spec (00_scope.md R9). -/
structure Params where
  /-- `NMAX`, the number of words of COEF. -/
  nmax : Nat
  /-- `FBCAP`, the number of bytes of FB. -/
  fbcap : Nat
deriving DecidableEq, Repr

/-- `MMAX = NMAX - ceil(NMAX / 64)`, the number of words of SEQ (00_scope.md R9). -/
def Params.mmax (p : Params) : Nat := p.nmax - (p.nmax + 63) / 64

namespace Config

/-- `BLK`: coefficients per block; index 0 of a block is its DC coefficient (00_scope.md R8). -/
def blk : Nat := 64

/-- `HDRLEN`: bytes of the header, so the frame-buffer address of the payload (00_scope.md R8). -/
def hdrLen : Nat := 8

/-- `KEYLEN`: bytes of the obfuscation key (00_scope.md R8). -/
def keyLen : Nat := 4

/-- `DEFAULT_SEED`, the reset value of SEED (00_scope.md R10). -/
def defaultSeed : Word := 0x4F757447#32

/-- `ZSEED`, the generator's first state when SEED is zero (00_scope.md R10). -/
def zSeed : Word := 0x9E3779B9#32

/-- `NMAX - 1` of the instance that leaves reset: any value with 1 <= NMAX <= 2^32 - 1 (00_scope.md R9; log 3). -/
opaque nmaxPred : Fin (4294967294 + 1)

/-- `FBCAP - 9` of the instance that leaves reset: any value with 9 <= FBCAP <= 2^28 (00_scope.md R9; log 3). -/
opaque fbcapSpare : Fin (268435447 + 1)

/-- The capacities of the instance that leaves reset (00_scope.md R9; log 3). -/
def params : Params := { nmax := nmaxPred.val + 1, fbcap := fbcapSpare.val + 9 }

/-- DESIGN CHOICE (form): the word of COEF at an index that nothing has written since hardware reset number `era`
(10_state.md R43; log 4). -/
opaque freeCoef : Nat → Nat → Coef

/-- DESIGN CHOICE (form): the word of SEQ at an index that nothing has written since hardware reset number `era`
(10_state.md R43; log 4). -/
opaque freeSeq : Nat → Nat → Word

/-- DESIGN CHOICE (form): the byte of FB at an address that nothing has written since hardware reset number `era`
(10_state.md R43; log 4). -/
opaque freeFb : Nat → Nat → Byte

end Config

end Sys2Proof
end

