-- ==== Sys2Proof/Syntax.lean ====
section
/-! DEFINITION. What the outside gives the block: the ten commands, the seven host operations, a hardware reset; and what the
port answers. -/

namespace Sys2Proof

/-- The ten commands, one constructor per row of the opcode table. A command has no operand field: every operand is an
implicit register or storage (30_encoding.md R91, R93). -/
inductive Instr
  | sysNop
  | sysReset
  | seqGen
  | bpRewind
  | bpWrite
  | bpRead
  | frmBuild
  | frmParse
  | frmCheck
  | obfXor
deriving DecidableEq, Repr

/-- The fifteen registers by name (10_state.md R22). -/
inductive Reg
  | cmd
  | status
  | n
  | seed
  | m
  | pos
  | minmag
  | boff
  | bcnt
  | bitcnt
  | len
  | hcrc
  | crc
  | key
  | maxmsg
deriving DecidableEq, Repr

/-- The seven kinds of host operation (40_host_port.md R110). There is no write of SEQ (R116). -/
inductive HostOp
  /-- `RegRead(n)`. -/
  | regRead (n : Nat)
  /-- `RegWrite(n, v)`; `n = 0` issues command `v` (R118). -/
  | regWrite (n : Nat) (v : Word)
  /-- `CoefRead(i)`. -/
  | coefRead (i : Nat)
  /-- `CoefWrite(i, c)`; a 16-bit word is exactly a `c` in -32768 to 32767 (log 11). -/
  | coefWrite (i : Nat) (c : Coef)
  /-- `SeqRead(k)`. -/
  | seqRead (k : Nat)
  /-- `FbRead(a)`. -/
  | fbRead (a : Nat)
  /-- `FbWrite(a, b)`. -/
  | fbWrite (a : Nat) (b : Byte)
deriving DecidableEq, Repr

/-- What can reach the block from outside (40_host_port.md R110; 70_reset_and_hazards.md R280; log 1, log 6). -/
inductive Input
  | host (op : HostOp)
  | hardwareReset
deriving DecidableEq, Repr

/-- What a read returns to the host (40_host_port.md R111, R114 to R116). -/
inductive Reply
  | reg (v : Word)
  | coef (c : Coef)
  | seq (v : Word)
  | fb (b : Byte)
deriving DecidableEq, Repr

end Sys2Proof
end

