-- ==== Sys2Proof/WellFormed.lean ====
section
/-! DEFINITION. The checks on what the types alone do not rule out: capacities in the range the spec allows, host operations
that name a location, commands. -/

namespace Sys2Proof

/-- The constraints on the capacities (00_scope.md R9). -/
def Params.wellFormed (p : Params) : Bool :=
  1 ≤ p.nmax && p.nmax ≤ 4294967295 && 9 ≤ p.fbcap && p.fbcap ≤ 268435456

/-- A command has no operand that could be out of range (30_encoding.md R91, R92): every term is well-formed. -/
def Instr.wellFormed : Instr → Bool
  | .sysNop => true
  | .sysReset => true
  | .seqGen => true
  | .bpRewind => true
  | .bpWrite => true
  | .bpRead => true
  | .frmBuild => true
  | .frmParse => true
  | .frmCheck => true
  | .obfXor => true

/-- A host operation names a location that exists: a storage index below the storage's capacity, any register number
(20_memory.md R65; 40_host_port.md R111 to R116). -/
def HostOp.wellFormed (p : Params) : HostOp → Bool
  | .regRead _ => true
  | .regWrite _ _ => true
  | .coefRead i => i < p.nmax
  | .coefWrite i _ => i < p.nmax
  | .seqRead k => k < p.mmax
  | .fbRead a => a < p.fbcap
  | .fbWrite a _ => a < p.fbcap

end Sys2Proof
end

