-- ==== Sys2Proof/Decode.lean ====
section
/-! DEFINITION. Decoding a command word and encoding a command, each written from 30_encoding.md R93; register numbers. -/

namespace Sys2Proof

/-- Why a word is no command (30_encoding.md R94). -/
inductive Reject
  /-- Bits 31:8, which must be 0, are not. -/
  | zeroFieldSet (upper : BitVec 24)
  /-- Bits 31:8 are 0 and bits 7:0 are no listed opcode. -/
  | reservedOpcode (opc : Byte)
deriving DecidableEq, Repr

/-- Field OPC, bits 7:0 (30_encoding.md R90). -/
def opcField (w : Word) : Byte := w.extractLsb' 0 8

/-- Bits 3:0 of OPC, the function within the unit (30_encoding.md R90). -/
def functionField (w : Word) : BitVec 4 := w.extractLsb' 0 4

/-- Bits 7:4 of OPC, the unit (30_encoding.md R90). -/
def unitField (w : Word) : BitVec 4 := w.extractLsb' 4 4

/-- Field ZERO, bits 31:8 (30_encoding.md R90). -/
def zeroField (w : Word) : BitVec 24 := w.extractLsb' 8 24

/-- A row of the opcode map: a word selects the command when `word & mask = match` (30_encoding.md R93). -/
structure OpcodeRow where
  mask : Word
  pattern : Word
  instr : Instr
deriving DecidableEq, Repr

/-- The opcode map (30_encoding.md R93). -/
def opcodeTable : List OpcodeRow :=
  [ { mask := 0xFFFFFFFF#32, pattern := 0x00000000#32, instr := .sysNop },
    { mask := 0xFFFFFFFF#32, pattern := 0x00000001#32, instr := .sysReset },
    { mask := 0xFFFFFFFF#32, pattern := 0x00000010#32, instr := .seqGen },
    { mask := 0xFFFFFFFF#32, pattern := 0x00000020#32, instr := .bpRewind },
    { mask := 0xFFFFFFFF#32, pattern := 0x00000021#32, instr := .bpWrite },
    { mask := 0xFFFFFFFF#32, pattern := 0x00000022#32, instr := .bpRead },
    { mask := 0xFFFFFFFF#32, pattern := 0x00000030#32, instr := .frmBuild },
    { mask := 0xFFFFFFFF#32, pattern := 0x00000031#32, instr := .frmParse },
    { mask := 0xFFFFFFFF#32, pattern := 0x00000032#32, instr := .frmCheck },
    { mask := 0xFFFFFFFF#32, pattern := 0x00000040#32, instr := .obfXor } ]

/-- The command a word selects, or why it selects none (30_encoding.md R93, R94). Total on every word. -/
def decode (w : Word) : Except Reject Instr :=
  match opcodeTable.find? (fun row => w &&& row.mask == row.pattern) with
  | some row => .ok row.instr
  | none => if zeroField w = 0#24 then .error (.reservedOpcode (opcField w)) else .error (.zeroFieldSet (zeroField w))

/-- The word of a command (30_encoding.md R93, column "Word"). -/
def encode : Instr → Word
  | .sysNop => 0x00000000#32
  | .sysReset => 0x00000001#32
  | .seqGen => 0x00000010#32
  | .bpRewind => 0x00000020#32
  | .bpWrite => 0x00000021#32
  | .bpRead => 0x00000022#32
  | .frmBuild => 0x00000030#32
  | .frmParse => 0x00000031#32
  | .frmCheck => 0x00000032#32
  | .obfXor => 0x00000040#32

/-- The command word an instruction of `nbits` bits with value `w` stands for: the bits above `nbits` are 0, and a value that
does not fit the one 32-bit format is no command word (30_encoding.md R90, R95; log 13). -/
def tableWord (nbits w : Nat) : Option Word :=
  if w % 2 ^ nbits < 2 ^ 32 then some (BitVec.ofNat 32 (w % 2 ^ nbits)) else none

/-- The command the decoder reads from the instruction whose bits are `w` (log 13). -/
def decodeTableWord (nbits w : Nat) : Option Instr :=
  match tableWord nbits w with
  | some word => (decode word).toOption
  | none => none

/-- The register a number names; 15 and above name none (10_state.md R22, R23). -/
def Reg.ofNumber : Nat → Option Reg
  | 0 => some .cmd
  | 1 => some .status
  | 2 => some .n
  | 3 => some .seed
  | 4 => some .m
  | 5 => some .pos
  | 6 => some .minmag
  | 7 => some .boff
  | 8 => some .bcnt
  | 9 => some .bitcnt
  | 10 => some .len
  | 11 => some .hcrc
  | 12 => some .crc
  | 13 => some .key
  | 14 => some .maxmsg
  | _ => none

end Sys2Proof
end

