-- ==== Sys2Proof/Machine/State.lean ====
section
/-! DEFINITION. The state of one block instance, its reset, and why a step can stop. -/

namespace Sys2Proof.Machine

/-- A storage as the locations written since reset with their contents, in ascending order of index, each index once
(10_state.md R40 to R43; log 4, log 5). -/
abbrev Memory (w : Nat) := List (Nat × BitVec w)

/-- The canonical form: indices strictly rise (log 5). -/
abbrev Memory.wf {w : Nat} (m : Memory w) : Prop := m.Pairwise (fun x y => x.1 < y.1)

/-- The register file (10_state.md R22). CMD has no field: its write issues a command and its read gives 0 (log 7). -/
structure Regs where
  status : Word
  n : Word
  seed : Word
  m : Word
  pos : Word
  minmag : Word
  boff : Word
  bcnt : Word
  bitcnt : Word
  len : Word
  hcrc : Word
  crc : Word
  key : Word
  maxmsg : Word
deriving DecidableEq, Repr

/-- The state of one instance (10_state.md R21): registers and the three storages. `params` is fixed for the instance (log 3);
`inputs`, `replies` and `era` are the model's own (log 1, log 2, log 6). -/
structure State where
  /-- The instance's capacities; no step changes them (00_scope.md R9). -/
  params : Params
  /-- The register file. -/
  regs : Regs
  /-- COEF, the written words (10_state.md R40). -/
  coef : Memory 16
  /-- SEQ, the written words (10_state.md R41). -/
  seq : Memory 32
  /-- FB, the written bytes (10_state.md R42). -/
  fb : List Host.Cell
  /-- How many hardware resets there have been: which free values the unwritten locations hold (log 4, log 6). -/
  era : Nat
  /-- What the outside has issued and has not yet taken effect, the next one first (log 1). -/
  inputs : List Input
  /-- What the port has returned to the host, the latest first (log 2). -/
  replies : List Reply
deriving DecidableEq, Repr

/-- Why the machine would stop with a fault: for no reason. Every error of the block is a code in STATUS.ERR after which it
goes on, nothing is fatal (60_exceptions.md R240, R255). -/
inductive Fault
deriving DecidableEq, Repr

/-- Why a step has no meaning. -/
inductive Refusal
  /-- Raised by `exec` for an instruction whose meaning has not been written. Safe. -/
  | notModelled (mnemonic : String)
  /-- Raised by the port for a host operation whose index lies outside its storage: the spec gives such an access no step
  (40_host_port.md R116; log 9). Safe. -/
  | noSuchLocation
deriving DecidableEq, Repr

/-- The error kinds (60_exceptions.md R241). -/
inductive ErrorKind
  | invalidInput
  | messageTooLarge
  | insufficientCapacity
  | invalidHeader
  | integrityCheckFailed
  /-- Reserved for the host, never raised by the block (60_exceptions.md R247). -/
  | decryptionFailed
  /-- Reserved for the host, never raised by the block (60_exceptions.md R247). -/
  | parseError
  | illegalCommand
  | noSequence
  | badOperand
deriving DecidableEq, Repr

/-- The registers after reset and after SYS.RESET (10_state.md R50; 45_system.md R211). -/
def Regs.reset (p : Params) : Regs where
  status := 0#32
  n := 0#32
  seed := Config.defaultSeed
  m := 0#32
  pos := 0#32
  minmag := 0#32
  boff := 0#32
  bcnt := 0#32
  bitcnt := 0#32
  len := 0#32
  hcrc := 0#32
  crc := 0#32
  key := 0#32
  maxmsg := BitVec.ofNat 32 (p.fbcap - 8)

/-- An instance with capacities `p` right after its hardware reset number `era`: registers at their reset values, no storage
location written (10_state.md R43, R50; 70_reset_and_hazards.md R280). -/
def State.resetAt (p : Params) (era : Nat) : State where
  params := p
  regs := Regs.reset p
  coef := []
  seq := []
  fb := []
  era := era
  inputs := []
  replies := []

/-- The machine right after reset (10_state.md R50; log 3, log 17). -/
def State.reset : State := State.resetAt Config.params 0

end Sys2Proof.Machine
end

