-- ==== Sys2Proof/Machine/Flags.lean ====
section
/-! DEFINITION. The STATUS register's fields and the error codes. -/

namespace Sys2Proof.Machine

/-- The code of an error kind (60_exceptions.md R241). -/
def ErrorKind.code : ErrorKind → Byte
  | .invalidInput => 1#8
  | .messageTooLarge => 2#8
  | .insufficientCapacity => 3#8
  | .invalidHeader => 4#8
  | .integrityCheckFailed => 5#8
  | .decryptionFailed => 6#8
  | .parseError => 7#8
  | .illegalCommand => 8#8
  | .noSequence => 9#8
  | .badOperand => 10#8

/-- Field ERR of a STATUS word, bits 7:0 (10_state.md R30). -/
def errOf (status : Word) : Byte := status.extractLsb' 0 8

/-- Field SV of a STATUS word, bit 8 (10_state.md R30). -/
def svOf (status : Word) : Bool := status.getLsbD 8

/-- Field V of a STATUS word, bit 9 (10_state.md R30). -/
def vOf (status : Word) : Bool := status.getLsbD 9

/-- A STATUS word with its field ERR replaced. -/
def withErr (status : Word) (e : Byte) : Word := (status &&& 0xFFFFFF00#32) ||| e.setWidth 32

/-- A STATUS word with its field SV replaced. -/
def withSv (status : Word) (b : Bool) : Word := if b then status ||| 0x100#32 else status &&& 0xFFFFFEFF#32

/-- A STATUS word with its field V replaced. -/
def withV (status : Word) (b : Bool) : Word := if b then status ||| 0x200#32 else status &&& 0xFFFFFDFF#32

end Sys2Proof.Machine
end

