-- ==== Sys2Proof/Machine/Ops.lean ====
section
/-! DEFINITION. The named operations over storages and registers, and how a command ends: with success or with a `raise`. -/

namespace Sys2Proof.Machine

/-! ## One location of a storage -/

/-- What has been written at an index, if anything has. -/
def Memory.get? {w : Nat} : Memory w → Nat → Option (BitVec w)
  | [], _ => none
  | (b, x) :: m, a => if b = a then some x else Memory.get? m a

/-- The contents of a location; one that nothing has written holds its free value (10_state.md R43; log 4). -/
def Memory.get {w : Nat} (free : Nat → BitVec w) (m : Memory w) (a : Nat) : BitVec w := (Memory.get? m a).getD (free a)

/-- Write one location, keeping the canonical form (log 5). -/
def Memory.put {w : Nat} : Memory w → Nat → BitVec w → Memory w
  | [], a, v => [(a, v)]
  | (b, x) :: m, a, v =>
    if a < b then (a, v) :: (b, x) :: m else if a = b then (a, v) :: m else (b, x) :: Memory.put m a v

/-- Write consecutive locations from `a` on. -/
def Memory.putAll {w : Nat} (m : Memory w) (a : Nat) : List (BitVec w) → Memory w
  | [] => m
  | v :: vs => Memory.putAll (Memory.put m a v) (a + 1) vs

/-! ## The three storages of a state -/

/-- `COEF[i]`, as its word (00_scope.md R13; 10_state.md R40). -/
def State.coefAt (s : State) (i : Nat) : Coef := Memory.get (Config.freeCoef s.era) s.coef i

/-- `SEQ[k]` (00_scope.md R13; 10_state.md R41). DESIGN CHOICE (log 19): a word that an earlier SEQ.GEN wrote reads as it was
last written also where it is no entry of a valid sequence, while SV = 0 or at M and above; 40_host_port.md R116 calls that
value unspecified. -/
def State.seqAt (s : State) (k : Nat) : Word := Memory.get (Config.freeSeq s.era) s.seq k

/-- `FB[a]` (00_scope.md R13; 10_state.md R42). -/
def State.fbAt (s : State) (a : Nat) : Byte := Memory.get (Config.freeFb s.era) s.fb a

/-- `MemRead(FB, a, n)`: the big-endian number of `n` bytes (00_scope.md R13; 20_memory.md R60). -/
def State.fbNumber (s : State) (a : Nat) : Nat → Nat
  | 0 => 0
  | n + 1 => s.fbNumber a n * 256 + (s.fbAt (a + n)).toNat

/-- `MemWrite(FB, a, n, v)`: the big-endian form of `v` in `n` bytes (00_scope.md R13; 20_memory.md R60). -/
def putNumber (fb : Memory 8) (a : Nat) : Nat → Nat → Memory 8
  | 0, _ => fb
  | n + 1, v => Memory.put (putNumber fb a n (v / 256)) (a + n) (BitVec.ofNat 8 v)

/-! ## Registers -/

/-- The value of a register; CMD reads 0 (10_state.md R22, R24; 40_host_port.md R111). -/
def Regs.read (r : Regs) : Reg → Word
  | .cmd => 0#32
  | .status => r.status
  | .n => r.n
  | .seed => r.seed
  | .m => r.m
  | .pos => r.pos
  | .minmag => r.minmag
  | .boff => r.boff
  | .bcnt => r.bcnt
  | .bitcnt => r.bitcnt
  | .len => r.len
  | .hcrc => r.hcrc
  | .crc => r.crc
  | .key => r.key
  | .maxmsg => r.maxmsg

/-- What a host write stores: an RW register takes any value, an RO register none; a write of CMD stores nothing
(10_state.md R22, R24; 40_host_port.md R112, R113). -/
def Regs.hostWrite (r : Regs) (v : Word) : Reg → Regs
  | .cmd => r
  | .status => r
  | .n => { r with n := v }
  | .seed => { r with seed := v }
  | .m => r
  | .pos => r
  | .minmag => { r with minmag := v }
  | .boff => { r with boff := v }
  | .bcnt => { r with bcnt := v }
  | .bitcnt => r
  | .len => { r with len := v }
  | .hcrc => r
  | .crc => r
  | .key => { r with key := v }
  | .maxmsg => { r with maxmsg := v }

/-- The effective maximum payload length `MAXEFF = min(r[MAXMSG], FBCAP - 8)` (10_state.md R25; 43_framer.md R183). -/
def State.maxEff (s : State) : Nat := min s.regs.maxmsg.toNat (s.params.fbcap - 8)

/-! ## How a command ends -/

/-- Set STATUS.ERR. -/
def State.setErr (s : State) (e : Byte) : State := { s with regs := { s.regs with status := withErr s.regs.status e } }

/-- Set STATUS.SV. -/
def State.setSv (s : State) (b : Bool) : State := { s with regs := { s.regs with status := withSv s.regs.status b } }

/-- Set STATUS.V. -/
def State.setV (s : State) (b : Bool) : State := { s with regs := { s.regs with status := withV s.regs.status b } }

/-- `raise E`: the one way the block reports an error. STATUS.ERR takes the code and the command ends; nothing is saved, no
mode changes, control goes nowhere, and there is no return from it (00_scope.md R14; 60_exceptions.md R240, R253, R255). -/
def State.raise (s : State) (e : ErrorKind) : State := s.setErr e.code

/-- A command that reaches its end clears STATUS.ERR (00_scope.md R14; 60_exceptions.md R241). -/
def State.succeed (s : State) : State := s.setErr 0#8

end Sys2Proof.Machine
end

