-- ==== Sys2Proof/Machine/Operands.lean ====
section
/-! DEFINITION. The operand forms: magnitudes, bit 0 of a coefficient word, stream bits, key bytes, the payload. -/

namespace Sys2Proof.Machine

/-- `abs(s16(word))`, never wrapped: -32768 gives 32768 (00_scope.md R12; 42_bitpacker.md R151). -/
def magnitude (c : Coef) : Nat := c.toInt.natAbs

/-- A visited coefficient is a carrier unless its magnitude is below the threshold; the comparison is of unbounded integers
(00_scope.md R17; 42_bitpacker.md R151). -/
def isCarrier (threshold : Word) (c : Coef) : Bool := !(magnitude c < threshold.toNat)

/-- The bit read from a coefficient, `u16(c) & 1` (42_bitpacker.md R152). -/
def lsb (c : Coef) : Bool := c.getLsbD 0

/-- The coefficient with its bit replaced, `s16((u16(c) & 0xFFFE) | b)` (42_bitpacker.md R152; 20_memory.md R69). -/
def withLsb (c : Coef) (b : Bool) : Coef := (c &&& 0xFFFE#16) ||| (BitVec.ofBool b).setWidth 16

/-- Stream bit `k`: bit `7 - (k mod 8)` of `FB[BOFF + (k div 8)]` (20_memory.md R61; 42_bitpacker.md R154). -/
def State.streamBit (s : State) (k : Nat) : Bool := (s.fbAt (s.regs.boff.toNat + k / 8)).getLsbD (7 - k % 8)

/-- Key byte `j`, `r[KEY][31-8j : 24-8j]` (20_memory.md R62; 44_obfuscator.md R201). -/
def keyByte (key : Word) (j : Nat) : Byte := (key >>> (24 - 8 * j)).setWidth 8

/-- Stream byte `i` of the keystream: key byte `i mod 4` (44_obfuscator.md R201). -/
def keystream (key : Word) (i : Nat) : Byte := keyByte key (i % Config.keyLen)

/-- The payload bytes `FB[8], ..., FB[8+L-1]` (10_state.md R42; 30_encoding.md R96). -/
def State.payload (s : State) (length : Nat) : List Byte := (List.range length).map (fun i => s.fbAt (Config.hdrLen + i))

/-- The range `FB[BOFF]` to `FB[BOFF+BCNT-1]` lies in FB; the sum is unbounded (30_encoding.md R92; 42_bitpacker.md R158). -/
def State.bitRangeFits (s : State) : Bool := s.regs.boff.toNat + s.regs.bcnt.toNat ≤ s.params.fbcap

/-- The range `FB[8]` to `FB[8+LEN-1]` lies in FB; the sum is unbounded (30_encoding.md R92; 60_exceptions.md R250). -/
def State.payloadFits (s : State) : Bool := Config.hdrLen + s.regs.len.toNat ≤ s.params.fbcap

end Sys2Proof.Machine
end

