-- ==== Sys2Proof/Machine/BitPacker.lean ====
section
/-! DEFINITION. BP, the LSB bit-packer: the walks through the embedding sequence and the meanings of BP.REWIND, BP.WRITE and
BP.READ (42_bitpacker.md). -/

namespace Sys2Proof.Machine

/-- The checks before any BP transfer, in order: the error that ends the command, if one does (42_bitpacker.md R158). -/
def State.transferError (s : State) : Option ErrorKind :=
  if svOf s.regs.status then (if s.bitRangeFits then none else some .badOperand) else some .noSequence

/-- How many sequence entries the walk has ahead of it, `M - POS` (40_host_port.md R119; log 8). -/
def State.entriesLeft (s : State) : Nat := s.regs.m.toNat - s.regs.pos.toNat

/-- The bits a transfer owes, `8 * BCNT` (42_bitpacker.md R150). -/
def State.bitsOwed (s : State) : Nat := 8 * s.regs.bcnt.toNat

/-- A walk that writes: the cursor, the bits written so far and COEF as it stands (42_bitpacker.md R150). -/
structure WriteWalk where
  pos : Nat
  k : Nat
  coef : Memory 16
deriving DecidableEq, Repr

/-- One visit of BP.WRITE (42_bitpacker.md R150 to R152): the coefficient is read once; below the threshold it is skipped,
otherwise it takes stream bit `k`. -/
def State.writeVisit (s : State) (w : WriteWalk) : WriteWalk :=
  let idx := (s.seqAt w.pos).toNat
  let c := Memory.get (Config.freeCoef s.era) w.coef idx
  if isCarrier s.regs.minmag c then
    { pos := w.pos + 1, k := w.k + 1, coef := Memory.put w.coef idx (withLsb c (s.streamBit w.k)) }
  else { w with pos := w.pos + 1 }

/-- Visit while a bit is owed and an entry is left; completion is tested first (42_bitpacker.md R150, R155). -/
def State.writeWalk (s : State) : Nat → WriteWalk → WriteWalk
  | 0, w => w
  | left + 1, w => if w.k < s.bitsOwed then s.writeWalk left (s.writeVisit w) else w

/-- The walk of a whole BP.WRITE. -/
def State.fullWriteWalk (s : State) : WriteWalk :=
  s.writeWalk s.entriesLeft { pos := s.regs.pos.toNat, k := 0, coef := s.coef }

/-- A walk that reads: the cursor, the bits read so far, the 8-bit shift register and FB as it stands
(42_bitpacker.md R160). -/
structure ReadWalk where
  pos : Nat
  k : Nat
  acc : Byte
  fb : Memory 8
deriving DecidableEq, Repr

/-- One visit of BP.READ (42_bitpacker.md R160): a carrier's bit 0 is shifted in, and every eighth bit stores a whole byte. -/
def State.readVisit (s : State) (w : ReadWalk) : ReadWalk :=
  let c := s.coefAt (s.seqAt w.pos).toNat
  if isCarrier s.regs.minmag c then
    let acc := (w.acc <<< 1) ||| (BitVec.ofBool (lsb c)).setWidth 8
    let k := w.k + 1
    if k % 8 = 0 then
      { pos := w.pos + 1, k := k, acc := 0#8, fb := Memory.put w.fb (s.regs.boff.toNat + k / 8 - 1) acc }
    else { pos := w.pos + 1, k := k, acc := acc, fb := w.fb }
  else { w with pos := w.pos + 1 }

/-- Visit while a bit is owed and an entry is left; completion is tested first (42_bitpacker.md R155, R160). -/
def State.readWalk (s : State) : Nat → ReadWalk → ReadWalk
  | 0, w => w
  | left + 1, w => if w.k < s.bitsOwed then s.readWalk left (s.readVisit w) else w

/-- The walk of a whole BP.READ. -/
def State.fullReadWalk (s : State) : ReadWalk :=
  s.readWalk s.entriesLeft { pos := s.regs.pos.toNat, k := 0, acc := 0#8, fb := s.fb }

/-- The end of a transfer that moved `k` bits and stopped at cursor `pos`: a bit still owed means the sequence is exhausted
(42_bitpacker.md R155 to R157, R161). -/
def State.endTransfer (s : State) (pos k : Nat) : State :=
  let t := { s with regs := { s.regs with pos := BitVec.ofNat 32 pos, bitcnt := BitVec.ofNat 32 k } }
  if k < s.bitsOwed then t.raise .insufficientCapacity else t.succeed

/-- BP.REWIND: POS becomes 0, also when there is no sequence (42_bitpacker.md R165). -/
def execBpRewind (s : State) : Host.Outcome State Fault Refusal :=
  .next { s with regs := { s.regs with pos := 0#32 } }.succeed

/-- BP.WRITE (42_bitpacker.md R150). -/
def execBpWrite (s : State) : Host.Outcome State Fault Refusal := .next (
  match s.transferError with
  | some e => s.raise e
  | none => { s with coef := s.fullWriteWalk.coef }.endTransfer s.fullWriteWalk.pos s.fullWriteWalk.k)

/-- BP.READ (42_bitpacker.md R160). -/
def execBpRead (s : State) : Host.Outcome State Fault Refusal := .next (
  match s.transferError with
  | some e => s.raise e
  | none => { s with fb := s.fullReadWalk.fb }.endTransfer s.fullReadWalk.pos s.fullReadWalk.k)

end Sys2Proof.Machine
end

