-- ==== Sys2Proof/Machine/Framer.lean ====
section
/-! DEFINITION. FRM, the integrity framer: CRC-32 and the meanings of FRM.BUILD, FRM.PARSE and FRM.CHECK (43_framer.md). -/

namespace Sys2Proof.Machine

/-- One of the eight shifts per byte (43_framer.md R180). -/
def crcShift (c : Word) : Word := if c.getLsbD 0 then (c >>> 1) ^^^ 0xEDB88320#32 else c >>> 1

/-- `k` shifts (43_framer.md R180). -/
def crcShifts : Nat → Word → Word
  | 0, c => c
  | k + 1, c => crcShifts k (crcShift c)

/-- One byte mixed into the low 8 bits, then eight shifts (43_framer.md R180). -/
def crcByte (c : Word) (b : Byte) : Word := crcShifts 8 (c ^^^ b.setWidth 32)

/-- `CRC32(bytes)` (43_framer.md R180). -/
def crc32 (bytes : List Byte) : Word := bytes.foldl crcByte 0xFFFFFFFF#32 ^^^ 0xFFFFFFFF#32

/-- FRM.BUILD (43_framer.md R181). -/
def execFrmBuild (s : State) : Host.Outcome State Fault Refusal := .next (
  let length := s.regs.len.toNat
  if length = 0 then s.raise .invalidInput
  else if s.maxEff < length then s.raise .messageTooLarge
  else
    let c := crc32 (s.payload length)
    { s with
      fb := putNumber (putNumber s.fb 0 4 length) 4 4 c.toNat
      regs := { s.regs with crc := c } }.succeed)

/-- FRM.PARSE (43_framer.md R185). -/
def execFrmParse (s : State) : Host.Outcome State Fault Refusal := .next (
  let length := s.fbNumber 0 4
  if length = 0 ∨ s.maxEff < length then s.raise .invalidHeader
  else
    { s with
      regs := { s.regs with len := BitVec.ofNat 32 length, hcrc := BitVec.ofNat 32 (s.fbNumber 4 4) } }.succeed)

/-- FRM.CHECK (43_framer.md R189). -/
def execFrmCheck (s : State) : Host.Outcome State Fault Refusal := .next (
  if s.payloadFits then
    let c := crc32 (s.payload s.regs.len.toNat)
    let t := { s with regs := { s.regs with crc := c } }
    if c = s.regs.hcrc then (t.setV true).succeed else (t.setV false).raise .integrityCheckFailed
  else (s.setV false).raise .badOperand)

end Sys2Proof.Machine
end

