-- ==== Sys2Proof/Machine/Obfuscator.lean ====
section
/-! DEFINITION. OBF, the XOR keystream obfuscator: the meaning of OBF.XOR (44_obfuscator.md). -/

namespace Sys2Proof.Machine

/-- FB after the first `n` payload bytes have been combined with the keystream, in ascending order (44_obfuscator.md R200). -/
def State.xorPayload (s : State) : Nat → Memory 8
  | 0 => s.fb
  | n + 1 =>
    Memory.put (s.xorPayload n) (Config.hdrLen + n) (s.fbAt (Config.hdrLen + n) ^^^ keystream s.regs.key n)

/-- OBF.XOR (44_obfuscator.md R200). -/
def execObfXor (s : State) : Host.Outcome State Fault Refusal := .next (
  if s.payloadFits then { s with fb := s.xorPayload s.regs.len.toNat }.succeed
  else s.raise .badOperand)

end Sys2Proof.Machine
end

