-- ==== Sys2Proof/Machine/Sequencer.lean ====
section
/-! DEFINITION. SEQ, the coefficient sequencer: the pure function of (length, seed) and the meaning of SEQ.GEN
(41_sequencer.md). -/

namespace Sys2Proof.Machine

/-- The candidate list: the AC positions below `n`, ascending (41_sequencer.md R131, R132). -/
def candidates (n : Nat) : List Nat := (List.range n).filter (fun i => i % Config.blk ≠ 0)

/-- `m = n - ceil(n / 64)` (41_sequencer.md R131, R139). -/
def sequenceLength (n : Nat) : Nat := n - (n + (Config.blk - 1)) / Config.blk

/-- One step of `OGSEQ-1`: the new state is also the output (41_sequencer.md R133). -/
def xorshift32 (s : Word) : Word :=
  let s := s ^^^ (s <<< 13)
  let s := s ^^^ (s >>> 17)
  s ^^^ (s <<< 5)

/-- The generator's first state (41_sequencer.md R134). -/
def seedState (seed : Word) : Word := if seed = 0#32 then Config.zSeed else seed

/-- The bounded draw `floor(r * (i + 1) / 2^32)`, with the full product (41_sequencer.md R135). -/
def boundedDraw (r : Word) (i : Nat) : Nat := (r.toNat * (i + 1)) / 2 ^ 32

/-- Exchange the entries at `i` and `j`. -/
def swapEntries (l : List Nat) (i j : Nat) : List Nat := (l.set i (l.getD j 0)).set j (l.getD i 0)

/-- The shuffle for positions `i` down to 1: at each, one generator step, one draw, one swap (41_sequencer.md R136). -/
def shuffleFrom : Nat → Word → List Nat → List Nat
  | 0, _, l => l
  | i + 1, s, l =>
    let r := xorshift32 s
    shuffleFrom i r (swapEntries l (i + 1) (boundedDraw r (i + 1)))

/-- `sequence(total_coefficients, seed)`: a function of `n` and `seed` alone (41_sequencer.md R130, R131, R138). -/
def embeddingSequence (n : Nat) (seed : Word) : List Nat :=
  shuffleFrom (sequenceLength n - 1) (seedState seed) (candidates n)

/-- SEQ.GEN (41_sequencer.md R131). Words of SEQ at M and above keep their contents (log 19). -/
def execSeqGen (s : State) : Host.Outcome State Fault Refusal := .next (
  let n := s.regs.n.toNat
  if s.params.nmax < n then s.raise .badOperand
  else
    let t := { s with
      seq := Memory.putAll s.seq 0 ((embeddingSequence n s.regs.seed).map (BitVec.ofNat 32))
      regs := { s.regs with m := BitVec.ofNat 32 (sequenceLength n), pos := 0#32 } }
    (t.setSv true).succeed)

end Sys2Proof.Machine
end

