-- ==== Sys2Proof/Machine/Sys.lean ====
section
/-! DEFINITION. The meanings of the SYS commands (45_system.md). -/

namespace Sys2Proof.Machine

/-- SYS.NOP: clears ERR and nothing else (45_system.md R210). -/
def execSysNop (s : State) : Host.Outcome State Fault Refusal := .next s.succeed

/-- SYS.RESET: every register takes its reset value; COEF, SEQ and FB keep their contents (45_system.md R211). -/
def execSysReset (s : State) : Host.Outcome State Fault Refusal := .next { s with regs := Regs.reset s.params }

end Sys2Proof.Machine
end

