-- ==== Sys2Proof/Machine/Dispatch.lean ====
section
/-! DEFINITION. One meaning per command (30_encoding.md R93). -/

namespace Sys2Proof.Machine

def exec (i : Instr) (s : State) : Host.Outcome State Fault Refusal :=
  match i with
  -- SYS
  | .sysNop => Sys2Proof.Machine.execSysNop s
  | .sysReset => Sys2Proof.Machine.execSysReset s
  -- SEQ
  | .seqGen => Sys2Proof.Machine.execSeqGen s
  -- BP
  | .bpRewind => Sys2Proof.Machine.execBpRewind s
  | .bpWrite => Sys2Proof.Machine.execBpWrite s
  | .bpRead => Sys2Proof.Machine.execBpRead s
  -- FRM
  | .frmBuild => Sys2Proof.Machine.execFrmBuild s
  | .frmParse => Sys2Proof.Machine.execFrmParse s
  | .frmCheck => Sys2Proof.Machine.execFrmCheck s
  -- OBF
  | .obfXor => Sys2Proof.Machine.execObfXor s

end Sys2Proof.Machine
end

