-- ==== Sys2Proof/Machine/Port.lean ====
section
/-! DEFINITION. The host port: what each host operation and a hardware reset do, and which input takes effect next
(40_host_port.md). -/

namespace Sys2Proof.Machine

/-- Return a value to the host (log 2). -/
def State.answer (s : State) (r : Reply) : State := { s with replies := r :: s.replies }

/-- Issue a command word: a legal word runs its command, an illegal one raises IllegalCommand and changes nothing else
(30_encoding.md R94; 40_host_port.md R118; 60_exceptions.md R248). -/
def issue (w : Word) (s : State) : Host.Outcome State Fault Refusal :=
  match decode w with
  | .ok i => exec i s
  | .error _ => .next (s.raise .illegalCommand)

/-- `RegRead(n)`: 0 for CMD and for a number that names no register (40_host_port.md R111). -/
def State.regRead (s : State) (n : Nat) : Word :=
  match Reg.ofNumber n with
  | some r => s.regs.read r
  | none => 0#32

/-- `RegWrite(n, v)` (40_host_port.md R112, R113, R118). -/
def regWrite (n : Nat) (v : Word) (s : State) : Host.Outcome State Fault Refusal :=
  match Reg.ofNumber n with
  | some .cmd => issue v s
  | some r => .next { s with regs := s.regs.hostWrite v r }
  | none => .next s

/-- One host operation; one that names no location is refused (40_host_port.md R110 to R118; log 9). -/
def serve (op : HostOp) (s : State) : Host.Outcome State Fault Refusal :=
  if op.wellFormed s.params then
    match op with
    | .regRead n => .next (s.answer (.reg (s.regRead n)))
    | .regWrite n v => regWrite n v s
    | .coefRead i => .next (s.answer (.coef (s.coefAt i)))
    | .coefWrite i c => .next { s with coef := Memory.put s.coef i c }
    | .seqRead k => .next (s.answer (.seq (s.seqAt k)))
    | .fbRead a => .next (s.answer (.fb (s.fbAt a)))
    | .fbWrite a b => .next { s with fb := Memory.put s.fb a b }
  else .refused .noSuchLocation

/-- A hardware reset: registers at their reset values, storages unspecified anew (10_state.md R43;
70_reset_and_hazards.md R280; log 6). What is outside the block, the inputs still to come and the replies already given,
stays. -/
def State.hardwareReset (s : State) : State :=
  { State.resetAt s.params (s.era + 1) with inputs := s.inputs, replies := s.replies }

/-- The next input takes effect; without one nothing changes (20_memory.md R75; 40_host_port.md R110, R120; log 1). -/
def takeInput (s : State) : Host.Outcome State Fault Refusal :=
  match s.inputs with
  | [] => .next s
  | .hardwareReset :: rest => .next { s with inputs := rest }.hardwareReset
  | .host op :: rest => serve op { s with inputs := rest }

/-- The state in which the very next input is a write of the command word `w` to CMD (40_host_port.md R118; log 13). -/
def State.issueNext (s : State) (w : Word) : State := { s with inputs := .host (.regWrite 0 w) :: s.inputs }

end Sys2Proof.Machine
end

