-- ==== Sys2Proof/Machine/Step.lean ====
section
/-! DEFINITION. One step of the machine: the next input takes effect. -/

namespace Sys2Proof.Machine

/-- One step (10_state.md R20; 40_host_port.md R110; log 1, log 10). -/
def step (s : State) : Host.Outcome State Fault Refusal := takeInput s

/-- The state in which the next step runs the instruction whose bits are `w`: the host writes it to CMD next. A value that is
no 32-bit word cannot be written to CMD and leaves the state as it is (log 1, log 13). -/
def State.withFetchWord (s : State) (nbits w : Nat) : State :=
  match tableWord nbits w with
  | some word => s.issueNext word
  | none => s

end Sys2Proof.Machine
end

