-- ==== Sys2Proof/Machine/HostSequences.lean ====
section
/-! DEFINITION. The host's side of embedding and extraction (46_host_sequences.md; 70_reset_and_hazards.md R291): no part of
the block and used by no step; procedures that only issue host operations and use what the port returns (log 14). -/

namespace Sys2Proof.Machine

/-- What the host reports when it stops a sequence (46_host_sequences.md R220). -/
inductive HostFailure
  /-- The error kind of a code, read from STATUS or found by the host's own check (60_exceptions.md R241). -/
  | error (code : Byte)
  /-- The host's crossing check found the crossing value at an AC position (70_reset_and_hazards.md R291). -/
  | crossingHazard
  /-- An operation named no location (40_host_port.md R116). -/
  | noSuchLocation
deriving DecidableEq, Repr

/-- The number of coefficients that could carry a bit at threshold `t` (46_host_sequences.md R226). -/
def carrierCount (coefs : List Coef) (t : Word) : Nat :=
  (coefs.zipIdx.filter (fun x => x.2 % Config.blk ≠ 0 ∧ isCarrier t x.1)).length

/-- `max_message_size`, clamped at 0 (46_host_sequences.md R226). -/
def maxMessageSize (coefs : List Coef) (t : Word) : Nat := (carrierCount coefs t - 8 * Config.hdrLen) / 8

/-- The value a bit write can push below the threshold: the threshold itself when it is odd, its negative when it is even and
not 0 (42_bitpacker.md R163; 70_reset_and_hazards.md R291). -/
def crossingValue (t : Word) : Option Int :=
  if t = 0#32 then none else if t.toNat % 2 = 1 then some t.toNat else some (-(t.toNat : Int))

/-- The coefficients a BP.WRITE of `bits` bits from POS = 0 uses as carriers, in the order of the sequence: each entry is
visited once and judged by the value it had before the walk (42_bitpacker.md R151; 46_host_sequences.md R226). -/
def walkCarriers (coefs : List Coef) (t : Word) (sequence : List Word) (bits : Nat) : List Coef :=
  ((sequence.filterMap (fun k => coefs[k.toNat]?)).filter (isCarrier t)).take bits

/-- A coefficient the walk will use as a carrier has the crossing value (70_reset_and_hazards.md R291). -/
def crossingAhead (coefs : List Coef) (t : Word) (sequence : List Word) (bits : Nat) : Bool :=
  (walkCarriers coefs t sequence bits).any (fun c => crossingValue t = some c.toInt)

/-- Issue one host operation. -/
def hostDo (op : HostOp) (s : State) : Except HostFailure State :=
  match serve op s with
  | .next t => .ok t
  | .fault _ => .error .noSuchLocation
  | .refused _ => .error .noSuchLocation

/-- Issue host operations in order. -/
def hostDoAll : List HostOp → State → Except HostFailure State
  | [], s => .ok s
  | op :: ops, s => match hostDo op s with
    | .ok t => hostDoAll ops t
    | .error e => .error e

/-- Issue reads in order and keep what the port returns, of the kind `pick` selects (log 2). -/
def hostReadAll {α : Type} (pick : Reply → Option α) (ops : List HostOp) (s : State) :
    Except HostFailure (List α × State) :=
  match hostDoAll ops s with
  | .ok t => .ok ((t.replies.take ops.length).reverse.filterMap pick, t)
  | .error e => .error e

/-- The value of a register reply. -/
def regReply? : Reply → Option Word
  | .reg v => some v
  | .coef _ => none
  | .seq _ => none
  | .fb _ => none

/-- The value of a coefficient reply. -/
def coefReply? : Reply → Option Coef
  | .reg _ => none
  | .coef c => some c
  | .seq _ => none
  | .fb _ => none

/-- The value of a sequence reply. -/
def seqReply? : Reply → Option Word
  | .reg _ => none
  | .coef _ => none
  | .seq v => some v
  | .fb _ => none

/-- The value of a frame-buffer reply. -/
def fbReply? : Reply → Option Byte
  | .reg _ => none
  | .coef _ => none
  | .seq _ => none
  | .fb b => some b

/-- `RD` of one register (30_encoding.md R100). A register read always returns a register reply, so the 0 is never taken. -/
def hostReadReg (n : Nat) (s : State) : Except HostFailure (Word × State) :=
  match hostReadAll regReply? [.regRead n] s with
  | .ok (vs, t) => .ok (vs.headD 0#32, t)
  | .error e => .error e

/-- Read `COEF[0], ..., COEF[n-1]`. -/
def hostReadCoefs (n : Nat) (s : State) : Except HostFailure (List Coef × State) :=
  hostReadAll coefReply? ((List.range n).map .coefRead) s

/-- Read `SEQ[0], ..., SEQ[n-1]`. -/
def hostReadSeq (n : Nat) (s : State) : Except HostFailure (List Word × State) :=
  hostReadAll seqReply? ((List.range n).map .seqRead) s

/-- Read `FB[a], ..., FB[a+n-1]`. -/
def hostReadFb (a n : Nat) (s : State) : Except HostFailure (List Byte × State) :=
  hostReadAll fbReply? ((List.range n).map (fun i => .fbRead (a + i))) s

/-- Issue a command, read STATUS, and stop when ERR is not 0 (46_host_sequences.md R220). -/
def hostCommand (i : Instr) (s : State) : Except HostFailure State := do
  let s ← hostDo (.regWrite 0 (encode i)) s
  let (status, s) ← hostReadReg 1 s
  if errOf status = 0#8 then .ok s else .error (.error (errOf status))

/-- `FB[a..] = bytes` (30_encoding.md R100). -/
def fbWrites (a : Nat) (bytes : List Byte) : List HostOp := bytes.zipIdx.map (fun x => .fbWrite (a + x.2) x.1)

/-- `COEF[i] = c[i]` for every `i` (30_encoding.md R100). -/
def coefWrites (coefs : List Coef) : List HostOp := coefs.zipIdx.map (fun x => .coefWrite x.2 x.1)

/-- What an EMBED or EXTRACT sequence is given. The seed, the key and the threshold are already words: the mappings SEEDHASH,
KEYHASH and THR are the host's (00_scope.md R11; log 14). -/
structure HostRequest where
  coefs : List Coef
  seed : Option Word
  key : Option Word
  minmag : Word
deriving DecidableEq, Repr

/-- The operand writes both sequences begin with (46_host_sequences.md R221, R223). -/
def HostRequest.setup (rq : HostRequest) : List HostOp :=
  [.regWrite 2 (BitVec.ofNat 32 rq.coefs.length)] ++ coefWrites rq.coefs
    ++ (rq.seed.toList.map (fun seed => .regWrite 3 seed)) ++ [.regWrite 6 rq.minmag]

/-- What EMBED reports: the result buffer and `messageSize` (46_host_sequences.md R221). -/
structure EmbedResult where
  coefs : List Coef
  messageSize : Nat
deriving DecidableEq, Repr

/-- What EXTRACT reports before the host decodes the bytes as text: the message bytes and `verified`
(46_host_sequences.md R223). -/
structure DecodeResult where
  message : List Byte
  verified : Bool
deriving DecidableEq, Repr

/-- OBF.XOR with the key, only when there is one (46_host_sequences.md R221, R223; 44_obfuscator.md R203). -/
def hostObfuscate (key : Option Word) (s : State) : Except HostFailure State :=
  match key with
  | none => .ok s
  | some k => do hostCommand .obfXor (← hostDo (.regWrite 13 k) s)

/-- The host's first check of EMBED: the message size against MAXEFF, before any byte is placed in FB
(46_host_sequences.md R221, R222). -/
def hostSizeCheck (length : Nat) (s : State) : Except HostFailure State := do
  let (maxmsg, s) ← hostReadReg 14 s
  if length = 0 then .error (.error ErrorKind.invalidInput.code)
  else if min maxmsg.toNat (s.params.fbcap - Config.hdrLen) < length then .error (.error ErrorKind.messageTooLarge.code)
  else .ok s

/-- The host's checks of EMBED after SEQ.GEN: capacity, then a crossing among the carriers the walk will use, for which the
host reads SEQ (46_host_sequences.md R221, R226; 70_reset_and_hazards.md R291). DESIGN CHOICE (log 14): a crossing value found
ends the sequence, where the spec names the check and no report. -/
def hostCarrierChecks (rq : HostRequest) (bits : Nat) (s : State) : Except HostFailure State := do
  if carrierCount rq.coefs rq.minmag < bits then .error (.error ErrorKind.insufficientCapacity.code)
  else
    let (m, s) ← hostReadReg 4 s
    let (sequence, s) ← hostReadSeq m.toNat s
    if crossingAhead rq.coefs rq.minmag sequence bits then .error .crossingHazard else .ok s

/-- EMBED (46_host_sequences.md R221, R222, R226; 70_reset_and_hazards.md R291): what the host reports, and the block's state at
the end. DESIGN CHOICE (log 18): with more than NMAX coefficients the sequence stops with `noSuchLocation` at the first write
of COEF at or above NMAX, before SEQ.GEN could raise the BadOperand that R221 names for it. -/
def hostEmbed (rq : HostRequest) (message : List Byte) (s : State) : Except HostFailure (EmbedResult × State) := do
  let s ← hostCommand .sysReset s
  let s ← hostSizeCheck message.length s
  let s ← hostDoAll (rq.setup ++ [.regWrite 10 (BitVec.ofNat 32 message.length)] ++ fbWrites Config.hdrLen message) s
  let s ← hostObfuscate rq.key s
  let s ← hostCommand .frmBuild s
  let s ← hostCommand .seqGen s
  let s ← hostCarrierChecks rq (8 * (Config.hdrLen + message.length)) s
  let s ← hostDoAll [.regWrite 7 0#32, .regWrite 8 (BitVec.ofNat 32 (Config.hdrLen + message.length))] s
  let s ← hostCommand .bpWrite s
  let (coefs, s) ← hostReadCoefs rq.coefs.length s
  .ok ({ coefs := coefs, messageSize := message.length }, s)

/-- EXTRACT (46_host_sequences.md R223): what the host reports, and the block's state at the end; after an error it reports
none of FB's contents (R220). Decoding the bytes as text is outside the model (00_scope.md R7). DESIGN CHOICE (log 18): more
than NMAX coefficients stop it as they stop `hostEmbed`. -/
def hostExtract (rq : HostRequest) (s : State) : Except HostFailure (DecodeResult × State) := do
  let s ← hostCommand .sysReset s
  let s ← hostDoAll rq.setup s
  let s ← hostCommand .seqGen s
  let s ← hostDoAll [.regWrite 7 0#32, .regWrite 8 (BitVec.ofNat 32 Config.hdrLen)] s
  let s ← hostCommand .bpRead s
  let s ← hostCommand .frmParse s
  let (length, s) ← hostReadReg 10 s
  let s ← hostDoAll [.regWrite 7 (BitVec.ofNat 32 Config.hdrLen), .regWrite 8 length] s
  let s ← hostCommand .bpRead s
  let s ← hostCommand .frmCheck s
  let s ← hostObfuscate rq.key s
  let (message, s) ← hostReadFb Config.hdrLen length.toNat s
  let (status, s) ← hostReadReg 1 s
  .ok ({ message := message, verified := vOf status }, s)

end Sys2Proof.Machine
end

