-- ==== Sys2Proof/Safety.lean ====
section
/-! DEFINITION. The terms claims about runs use: the invariant of a reachable state, the sequence as a list, the carriers ahead
of the cursor, and which host operations a step accepts. -/

namespace Sys2Proof.Machine

/-- `SEQ[0], ..., SEQ[M-1]` as numbers (10_state.md R41). -/
def State.sequenceEntries (s : State) : List Nat := (List.range s.regs.m.toNat).map (fun k => (s.seqAt k).toNat)

/-- A list holds every AC position below `n` exactly once and nothing else (41_sequencer.md R137). -/
def ListsAcPositions (l : List Nat) (n : Nat) : Prop := l.Nodup ∧ ∀ i, i ∈ l ↔ i < n ∧ i % 64 ≠ 0

/-- The coefficient that the sequence entry `k` names. -/
def State.coefOfEntry (s : State) (k : Nat) : Coef := s.coefAt (s.seqAt k).toNat

/-- How many of the `d` entries from the cursor on are carriers, judged by COEF as it stands (42_bitpacker.md R151). -/
def State.carriersWithin (s : State) (d : Nat) : Nat :=
  ((List.range d).filter (fun e => isCarrier s.regs.minmag (s.coefOfEntry (s.regs.pos.toNat + e)))).length

/-- How many carriers there are from the cursor to the end of the sequence (46_host_sequences.md R226). -/
def State.carriersAhead (s : State) : Nat := s.carriersWithin (s.regs.m.toNat - s.regs.pos.toNat)

/-- Every listed location lies below the capacity, and the list is in canonical form (20_memory.md R65; log 5). -/
def Memory.Within {w : Nat} (m : Memory w) (capacity : Nat) : Prop := Memory.wf m ∧ ∀ cell ∈ m, cell.1 < capacity

/-- While SV is set, SEQ holds the AC positions below some `n <= NMAX`, and M counts them; while SV is clear, M is 0
(10_state.md R30, R41; 41_sequencer.md R137, R139). -/
def State.SequenceValid (s : State) : Prop :=
  if svOf s.regs.status then
    ∃ n, n ≤ s.params.nmax ∧ s.regs.m.toNat = n - (n + 63) / 64 ∧ ListsAcPositions s.sequenceEntries n
  else s.regs.m = 0#32

/-- What holds of the state of every instance between steps. -/
structure State.Inv (s : State) : Prop where
  /-- The capacities are legal (00_scope.md R9). -/
  params : s.params.wellFormed = true
  /-- STATUS bits 31:10 are 0 (10_state.md R30). -/
  statusReserved : s.regs.status >>> 10 = 0#32
  /-- The sequence is one (10_state.md R41; 41_sequencer.md R137). -/
  sequence : s.SequenceValid
  /-- The cursor stays in the sequence (10_state.md R27). -/
  cursor : s.regs.pos.toNat ≤ s.regs.m.toNat
  /-- No transfer moves more bits than FB holds (42_bitpacker.md R157). -/
  bitCount : s.regs.bitcnt.toNat ≤ 8 * s.params.fbcap
  /-- COEF lists locations below NMAX only, in canonical form (20_memory.md R65). -/
  coef : Memory.Within s.coef s.params.nmax
  /-- SEQ lists locations below MMAX only, in canonical form (20_memory.md R65). -/
  seq : Memory.Within s.seq s.params.mmax
  /-- FB lists locations below FBCAP only, in canonical form (20_memory.md R65). -/
  fb : Memory.Within s.fb s.params.fbcap

/-- The next input is one the block accepts: nothing, a hardware reset, or a host operation that names a location
(40_host_port.md R110, R116). -/
def State.nextInputAccepted (s : State) : Bool :=
  match s.inputs with
  | [] => true
  | .hardwareReset :: _ => true
  | .host op :: _ => op.wellFormed s.params

end Sys2Proof.Machine
end

