-- ==== Sys2Proof/Certificates/Slice0/Obligations.lean ====
section
/-! DEFINITION. The statements for the provers. The sentences of the spec they formalise stand in OBLIGATIONS.json. -/

open Sys2Proof Sys2Proof.Machine

/-! ## Encoding, decoding, the step -/

/-- Decoding a command's word gives the command back (30_encoding.md R93; decision D4 of the spec). -/
def Obligations.DecodeOfEncodeIsInstruction : Prop := ∀ i : Instr, decode (encode i) = .ok i

/-- A word selects a command exactly when all its 32 bits equal the command's word, and the ten words are those of the opcode
map (30_encoding.md R93; decision D4 of the spec). -/
def Obligations.WordSelectsCommandExactlyByTable : Prop :=
  (∀ (w : Word) (i : Instr), decode w = .ok i ↔ w &&& 0xFFFFFFFF#32 = encode i) ∧
  encode .sysNop = 0x00000000#32 ∧ encode .sysReset = 0x00000001#32 ∧ encode .seqGen = 0x00000010#32 ∧
  encode .bpRewind = 0x00000020#32 ∧ encode .bpWrite = 0x00000021#32 ∧ encode .bpRead = 0x00000022#32 ∧
  encode .frmBuild = 0x00000030#32 ∧ encode .frmParse = 0x00000031#32 ∧ encode .frmCheck = 0x00000032#32 ∧
  encode .obfXor = 0x00000040#32

/-- Writing a word that is none of the ten to CMD sets STATUS.ERR to 8 and changes nothing else of the block
(60_exceptions.md R248; decision D23 of the spec). -/
def Obligations.IllegalCommandWordSetsOnlyErr : Prop :=
  ∀ (s : State) (rest : List Input) (w : Word), s.inputs = .host (.regWrite 0 w) :: rest →
    w ∉ [0x00000000#32, 0x00000001#32, 0x00000010#32, 0x00000020#32, 0x00000021#32, 0x00000022#32, 0x00000030#32,
      0x00000031#32, 0x00000032#32, 0x00000040#32] →
    step s = .next { s with
      inputs := rest, regs := { s.regs with status := (s.regs.status &&& 0xFFFFFF00#32) ||| 8#32 } }

/-- One word of each unit, written bit by bit from the format of 30_encoding.md R90 (upper field, unit, function), decodes to
its command. -/
def Obligations.CommandWordsDecodeAsTabled : Prop :=
  decode (0x000000#24 ++ 0x0#4 ++ 0x1#4) = .ok .sysReset ∧ decode (0x000000#24 ++ 0x1#4 ++ 0x0#4) = .ok .seqGen ∧
  decode (0x000000#24 ++ 0x2#4 ++ 0x1#4) = .ok .bpWrite ∧ decode (0x000000#24 ++ 0x3#4 ++ 0x2#4) = .ok .frmCheck ∧
  decode (0x000000#24 ++ 0x4#4 ++ 0x0#4) = .ok .obfXor

/-- When the next input writes to CMD a word that decodes to a command, the step is the command's meaning on the state with
that input taken (40_host_port.md R118). The input queue is the model's own (log 1). -/
def Obligations.StepRunsDecodedCommand : Prop :=
  ∀ (s : State) (rest : List Input) (w : Word) (i : Instr), s.inputs = .host (.regWrite 0 w) :: rest →
    decode w = .ok i → step s = exec i { s with inputs := rest }

/-- The next step of a state given a fetch word runs exactly that word's command (log 1, log 13). -/
def Obligations.FetchWordStepRunsInstruction : Prop :=
  ∀ (s : State) (w : Nat) (i : Instr), decodeTableWord 32 w = some i → step (s.withFetchWord 32 w) = exec i s

/-- With no input no state changes (40_host_port.md R120). -/
def Obligations.NoInputNoChange : Prop := ∀ s : State, s.inputs = [] → step s = .next s

/-! ## The host port -/

/-- A step is refused exactly when the next input is a host operation whose index lies outside its storage; every other step
gives a next state (40_host_port.md R116; decision D39 of the spec; log 9). -/
def Obligations.StepRefusesExactlyOutsideAccesses : Prop :=
  ∀ s : State,
    ((∃ r, step s = .refused r) ↔
      (∃ rest i, s.inputs = .host (.coefRead i) :: rest ∧ s.params.nmax ≤ i) ∨
      (∃ rest i c, s.inputs = .host (.coefWrite i c) :: rest ∧ s.params.nmax ≤ i) ∨
      (∃ rest k, s.inputs = .host (.seqRead k) :: rest ∧ s.params.nmax - (s.params.nmax + 63) / 64 ≤ k) ∨
      (∃ rest a, s.inputs = .host (.fbRead a) :: rest ∧ s.params.fbcap ≤ a) ∨
      (∃ rest a b, s.inputs = .host (.fbWrite a b) :: rest ∧ s.params.fbcap ≤ a)) ∧
    ((∃ r, step s = .refused r) ∨ ∃ t, step s = .next t)

/-- `RegRead(n)` returns `r[n]` for n = 1 to 14 and 0 otherwise, and has no side effect (40_host_port.md R111; the reply list
is the model's own, log 2). -/
def Obligations.RegReadAnswersRegisterOrZero : Prop :=
  ∀ (s : State) (rest : List Input) (n : Nat), s.inputs = .host (.regRead n) :: rest →
    step s = .next { s with
      inputs := rest
      replies := .reg (([0#32, s.regs.status, s.regs.n, s.regs.seed, s.regs.m, s.regs.pos, s.regs.minmag, s.regs.boff,
        s.regs.bcnt, s.regs.bitcnt, s.regs.len, s.regs.hcrc, s.regs.crc, s.regs.key, s.regs.maxmsg][n]?).getD 0#32)
          :: s.replies }

/-- `RegWrite(n, v)` stores any value in the eight RW registers and nothing else changes; for a read-only register or a number
of 15 or more nothing changes; for n = 0 the command `v` runs (40_host_port.md R112, R113; decisions D3, D30 of the spec). -/
def Obligations.RegWriteStoresOnlyInReadWriteRegisters : Prop :=
  ∀ (s : State) (rest : List Input) (v : Word),
    (∀ (n : Nat) (r : Regs),
      (n, r) ∈ [(2, { s.regs with n := v }), (3, { s.regs with seed := v }), (6, { s.regs with minmag := v }),
        (7, { s.regs with boff := v }), (8, { s.regs with bcnt := v }), (10, { s.regs with len := v }),
        (13, { s.regs with key := v }), (14, { s.regs with maxmsg := v })] →
      s.inputs = .host (.regWrite n v) :: rest → step s = .next { s with inputs := rest, regs := r }) ∧
    (∀ n : Nat, n ∈ [1, 4, 5, 9, 11, 12] ∨ 15 ≤ n → s.inputs = .host (.regWrite n v) :: rest →
      step s = .next { s with inputs := rest }) ∧
    (∀ i : Instr, v = encode i → s.inputs = .host (.regWrite 0 v) :: rest → step s = exec i { s with inputs := rest })

/-- Below NMAX, `CoefRead` returns the word and `CoefWrite` changes that word alone, whatever N is, DC positions included
(40_host_port.md R114; decision D5 of the spec). -/
def Obligations.CoefPortReadsAndWritesOneWord : Prop :=
  ∀ (s : State) (rest : List Input) (i : Nat) (c : Coef), i < s.params.nmax →
    (s.inputs = .host (.coefRead i) :: rest →
      step s = .next { s with inputs := rest, replies := .coef (s.coefAt i) :: s.replies }) ∧
    (s.inputs = .host (.coefWrite i c) :: rest →
      ∃ t, step s = .next t ∧ t = { s with inputs := rest, coef := t.coef } ∧ t.coefAt i = c ∧
        ∀ j, j ≠ i → t.coefAt j = s.coefAt j)

/-- Below FBCAP, `FbRead` returns the byte and `FbWrite` changes that byte alone; STATUS is not changed
(40_host_port.md R115; decisions D5, D20 of the spec). -/
def Obligations.FramePortReadsAndWritesOneByte : Prop :=
  ∀ (s : State) (rest : List Input) (a : Nat) (b : Byte), a < s.params.fbcap →
    (s.inputs = .host (.fbRead a) :: rest →
      step s = .next { s with inputs := rest, replies := .fb (s.fbAt a) :: s.replies }) ∧
    (s.inputs = .host (.fbWrite a b) :: rest →
      ∃ t, step s = .next t ∧ t = { s with inputs := rest, fb := t.fb } ∧ t.fbAt a = b ∧
        ∀ x, x ≠ a → t.fbAt x = s.fbAt x)

/-- Below MMAX, `SeqRead` returns the word and changes nothing (40_host_port.md R116; decision D10 of the spec). That a word
which is no entry of a valid sequence reads as it was last written is the model's choice (log 19). -/
def Obligations.SequencePortReadsOnly : Prop :=
  ∀ (s : State) (rest : List Input) (k : Nat), k < s.params.nmax - (s.params.nmax + 63) / 64 →
    s.inputs = .host (.seqRead k) :: rest →
    step s = .next { s with inputs := rest, replies := .seq (s.seqAt k) :: s.replies }

/-! ## SYS -/

/-- SYS.NOP, word 0x00000000, clears STATUS.ERR and changes nothing else (45_system.md R210; decisions D4, D22 of the
spec). -/
def Obligations.SysNopClearsErrOnly : Prop :=
  decode 0x00000000#32 = .ok .sysNop ∧
  ∀ s : State,
    exec .sysNop s = .next { s with regs := { s.regs with status := s.regs.status &&& 0xFFFFFF00#32 } }

/-- SYS.RESET, word 0x00000001, writes every register with its reset value and leaves the storages (45_system.md R211;
decisions D28, D35 of the spec). -/
def Obligations.SysResetRestoresEveryRegister : Prop :=
  decode 0x00000001#32 = .ok .sysReset ∧
  ∀ s : State,
    exec .sysReset s = .next { s with regs := {
      status := 0#32, n := 0#32, seed := 0x4F757447#32, m := 0#32, pos := 0#32, minmag := 0#32, boff := 0#32,
      bcnt := 0#32, bitcnt := 0#32, len := 0#32, hcrc := 0#32, crc := 0#32, key := 0#32,
      maxmsg := BitVec.ofNat 32 (s.params.fbcap - 8) } }

/-- The registers after reset, and SYS.RESET writes the same values (10_state.md R50; decision D28 of the spec). The capacities
as a field of the state and the empty lists that stand for unspecified storages are the model's choice (log 3, log 4,
log 5). -/
def Obligations.ResetValues : Prop :=
  State.reset.regs = {
      status := 0#32, n := 0#32, seed := 0x4F757447#32, m := 0#32, pos := 0#32, minmag := 0#32, boff := 0#32,
      bcnt := 0#32, bitcnt := 0#32, len := 0#32, hcrc := 0#32, crc := 0#32, key := 0#32,
      maxmsg := BitVec.ofNat 32 (State.reset.params.fbcap - 8) } ∧
  State.reset.regRead 0 = 0#32 ∧ State.reset.coef = [] ∧ State.reset.seq = [] ∧ State.reset.fb = [] ∧
  ∀ s : State, s.params = State.reset.params → exec .sysReset s = .next { s with regs := State.reset.regs }

/-- A hardware reset and SYS.RESET leave the same registers; SYS.RESET keeps the storages, a hardware reset leaves no location
written (45_system.md R212; decisions D29, D35 of the spec; the reset as an input is the model's choice, log 6). -/
def Obligations.HardwareResetRegistersLikeSysReset : Prop :=
  ∀ (s : State) (rest : List Input), s.inputs = .hardwareReset :: rest →
    ∃ t u, step s = .next t ∧ exec .sysReset s = .next u ∧ t.regs = u.regs ∧ t.params = s.params ∧
      t.inputs = rest ∧ t.replies = s.replies ∧ t.coef = [] ∧ t.seq = [] ∧ t.fb = [] ∧ t.era = s.era + 1 ∧
      u = { s with regs := u.regs }

/-! ## Errors of several commands -/

/-- The causes of BadOperand and the state it leaves; sums are unbounded; FRM.BUILD never raises it (60_exceptions.md R250;
decision D23 of the spec). -/
def Obligations.BadOperandLeavesOnlyErr : Prop :=
  ∀ s : State,
    (s.params.nmax < s.regs.n.toNat →
      exec .seqGen s = .next { s with regs := { s.regs with status := (s.regs.status &&& 0xFFFFFF00#32) ||| 10#32 } }) ∧
    (svOf s.regs.status = true → s.params.fbcap < s.regs.boff.toNat + s.regs.bcnt.toNat →
      exec .bpWrite s = .next { s with regs := { s.regs with status := (s.regs.status &&& 0xFFFFFF00#32) ||| 10#32 } } ∧
      exec .bpRead s = .next { s with regs := { s.regs with status := (s.regs.status &&& 0xFFFFFF00#32) ||| 10#32 } }) ∧
    (s.params.fbcap < 8 + s.regs.len.toNat →
      exec .frmCheck s =
        .next { s with regs := { s.regs with status := (s.regs.status &&& 0xFFFFFD00#32) ||| 10#32 } } ∧
      exec .obfXor s = .next { s with regs := { s.regs with status := (s.regs.status &&& 0xFFFFFF00#32) ||| 10#32 } }) ∧
    ∀ t, exec .frmBuild s = .next t → errOf t.regs.status ≠ 10#8

/-- BP.WRITE and BP.READ while SV = 0 set STATUS.ERR to 9 and change nothing else (60_exceptions.md R249; decision D23 of the
spec). -/
def Obligations.TransferWithoutSequenceSetsOnlyErr : Prop :=
  ∀ s : State, svOf s.regs.status = false →
    exec .bpWrite s = .next { s with regs := { s.regs with status := (s.regs.status &&& 0xFFFFFF00#32) ||| 9#32 } } ∧
    exec .bpRead s = .next { s with regs := { s.regs with status := (s.regs.status &&& 0xFFFFFF00#32) ||| 9#32 } }

/-! ## SEQ -/

/-- SEQ.GEN on a length that fits COEF: SEQ below M holds the sequencer's function of N and SEED, SEQ from M on is as it was,
M counts, POS is 0, SV is set, and nothing else changes (41_sequencer.md R131; decisions D6 to D13 of the spec). That words from M on still read as before is the
model's choice (log 19). -/
def Obligations.SeqGenStoresEmbeddingSequence : Prop :=
  ∀ s : State, s.regs.n.toNat ≤ s.params.nmax →
    ∃ t, exec .seqGen s = .next t ∧
      t = { s with
        seq := t.seq
        regs := { s.regs with
          m := BitVec.ofNat 32 (s.regs.n.toNat - (s.regs.n.toNat + 63) / 64), pos := 0#32,
          status := (s.regs.status &&& 0xFFFFFF00#32) ||| 0x100#32 } } ∧
      t.sequenceEntries = embeddingSequence s.regs.n.toNat s.regs.seed ∧
      ∀ k, t.regs.m.toNat ≤ k → t.seqAt k = s.seqAt k

/-- After SEQ.GEN, SEQ[0] to SEQ[M-1] hold every AC position below N exactly once and nothing else (41_sequencer.md R137). -/
def Obligations.SeqGenListsEachAcPositionOnce : Prop :=
  ∀ s : State, s.regs.n.toNat ≤ s.params.nmax →
    ∃ t, exec .seqGen s = .next t ∧ t.sequenceEntries.Nodup ∧
      ∀ i, i ∈ t.sequenceEntries ↔ i < s.regs.n.toNat ∧ i % 64 ≠ 0

/-- Two SEQ.GEN commands with equal N and SEED leave equal M and equal SEQ[0 .. M-1], whatever the rest of the two states
(41_sequencer.md R138). -/
def Obligations.SeqGenDependsOnLengthAndSeedOnly : Prop :=
  ∀ s s' : State, s.regs.n = s'.regs.n → s.regs.seed = s'.regs.seed → s.regs.n.toNat ≤ s.params.nmax →
    s'.regs.n.toNat ≤ s'.params.nmax →
    ∃ t t', exec .seqGen s = .next t ∧ exec .seqGen s' = .next t' ∧ t.regs.m = t'.regs.m ∧
      ∀ k, k < t.regs.m.toNat → t.seqAt k = t'.seqAt k

/-- M after SEQ.GEN is N - ceil(N / 64), the number of indices below N that are no multiple of 64 (41_sequencer.md R139). -/
def Obligations.SequenceLengthCountsAcPositions : Prop :=
  ∀ s t : State, s.regs.n.toNat ≤ s.params.nmax → exec .seqGen s = .next t →
    t.regs.m.toNat = s.regs.n.toNat - (s.regs.n.toNat + 63) / 64 ∧
    t.regs.m.toNat = ((List.range s.regs.n.toNat).filter (fun i => i % 64 ≠ 0)).length

/-- A generator step is one-to-one on words and never takes a non-zero state to 0 (41_sequencer.md R133; decision D6 of the
spec). -/
def Obligations.GeneratorStepIsInjectiveAndNeverZero : Prop :=
  (∀ x y : Word, xorshift32 x = xorshift32 y → x = y) ∧ ∀ x : Word, x ≠ 0#32 → xorshift32 x ≠ 0#32

/-- SEED = 0 gives the sequence of SEED = 0x9E3779B9 (41_sequencer.md R134; decision D7 of the spec). -/
def Obligations.ZeroSeedActsAsSubstituteSeed : Prop :=
  ∀ s : State, s.regs.n.toNat ≤ s.params.nmax →
    ∃ t u, exec .seqGen { s with regs := { s.regs with seed := 0#32 } } = .next t ∧
      exec .seqGen { s with regs := { s.regs with seed := 0x9E3779B9#32 } } = .next u ∧
      t.sequenceEntries = u.sequenceEntries ∧ t.regs.m = u.regs.m

/-- The worked trace, N = 8 with the default seed, and the sequences of N = 9 and N = 16 with it (41_sequencer.md R141, R142;
42_bitpacker.md R168). -/
def Obligations.DefaultSeedWorkedTrace : Prop :=
  ∀ s : State, 16 ≤ s.params.nmax → s.regs.seed = 0x4F757447#32 →
    (s.regs.n = 8#32 → ∃ t, exec .seqGen s = .next t ∧ t.sequenceEntries = [1, 3, 5, 2, 4, 6, 7]) ∧
    (s.regs.n = 9#32 → ∃ t, exec .seqGen s = .next t ∧ t.sequenceEntries = [6, 1, 4, 2, 3, 5, 8, 7]) ∧
    (s.regs.n = 16#32 → ∃ t, exec .seqGen s = .next t ∧
      t.sequenceEntries = [5, 9, 11, 8, 1, 13, 7, 3, 2, 12, 4, 6, 10, 15, 14])

/-- N = 0 and N = 1 give M = 0 and write no SEQ word; N = 2 gives the one entry 1; SV is set and POS is 0
(41_sequencer.md R140). -/
def Obligations.ShortBufferSequences : Prop :=
  ∀ s : State, s.regs.n.toNat ≤ s.params.nmax →
    (s.regs.n.toNat ≤ 1 →
      ∃ t, exec .seqGen s = .next t ∧ t.regs.m = 0#32 ∧ (∀ k, t.seqAt k = s.seqAt k) ∧ svOf t.regs.status = true ∧
        t.regs.pos = 0#32) ∧
    (s.regs.n = 2#32 →
      ∃ t, exec .seqGen s = .next t ∧ t.sequenceEntries = [1] ∧ svOf t.regs.status = true ∧ t.regs.pos = 0#32)

/-! ## BP -/

/-- BP.REWIND, word 0x00000020, sets POS to 0 and ERR to 0 and changes nothing else, also when SV = 0 (42_bitpacker.md R165;
decision D13 of the spec). -/
def Obligations.BpRewindZeroesCursorOnly : Prop :=
  decode 0x00000020#32 = .ok .bpRewind ∧
  ∀ s : State,
    exec .bpRewind s =
      .next { s with regs := { s.regs with pos := 0#32, status := s.regs.status &&& 0xFFFFFF00#32 } }

/-- With BCNT = 0 both transfers succeed with BITCNT = 0 and change nothing else, even when POS = M
(42_bitpacker.md R155, R160; decision D16 of the spec). -/
def Obligations.EmptyTransferMovesNothing : Prop :=
  ∀ s : State, svOf s.regs.status = true → s.regs.bcnt = 0#32 → s.regs.boff.toNat ≤ s.params.fbcap →
    exec .bpWrite s =
      .next { s with regs := { s.regs with bitcnt := 0#32, status := s.regs.status &&& 0xFFFFFF00#32 } } ∧
    exec .bpRead s =
      .next { s with regs := { s.regs with bitcnt := 0#32, status := s.regs.status &&& 0xFFFFFF00#32 } }

/-- BP.WRITE moves min(8 * BCNT, carriers ahead) bits: it succeeds exactly when there are enough carriers and then stops just
past the last one it used; otherwise it ends with ERR = 3 and POS = M (42_bitpacker.md R155 to R157; 46_host_sequences.md
R226; decisions D14, D16, D25 of the spec). -/
def Obligations.BpWriteMovesAsManyBitsAsCarriersAllow : Prop :=
  ∀ s : State, s.params.wellFormed = true → svOf s.regs.status = true → s.SequenceValid →
    s.regs.pos.toNat ≤ s.regs.m.toNat → s.regs.boff.toNat + s.regs.bcnt.toNat ≤ s.params.fbcap →
    ∃ t, exec .bpWrite s = .next t ∧
      t.regs.bitcnt.toNat = min (8 * s.regs.bcnt.toNat) s.carriersAhead ∧
      (8 * s.regs.bcnt.toNat ≤ s.carriersAhead →
        t.regs.status = s.regs.status &&& 0xFFFFFF00#32 ∧ s.regs.pos.toNat ≤ t.regs.pos.toNat ∧
        t.regs.pos.toNat ≤ s.regs.m.toNat ∧
        s.carriersWithin (t.regs.pos.toNat - s.regs.pos.toNat) = 8 * s.regs.bcnt.toNat ∧
        ∀ d, d < t.regs.pos.toNat - s.regs.pos.toNat → s.carriersWithin d < 8 * s.regs.bcnt.toNat) ∧
      (s.carriersAhead < 8 * s.regs.bcnt.toNat →
        t.regs.status = (s.regs.status &&& 0xFFFFFF00#32) ||| 3#32 ∧ t.regs.pos = s.regs.m)

/-- The same of BP.READ, for which the entries need not differ (42_bitpacker.md R155, R157, R160, R161; decisions D14 to D16
of the spec). -/
def Obligations.BpReadMovesAsManyBitsAsCarriersAllow : Prop :=
  ∀ s : State, s.params.wellFormed = true → svOf s.regs.status = true → s.regs.pos.toNat ≤ s.regs.m.toNat →
    s.regs.boff.toNat + s.regs.bcnt.toNat ≤ s.params.fbcap →
    ∃ t, exec .bpRead s = .next t ∧
      t.regs.bitcnt.toNat = min (8 * s.regs.bcnt.toNat) s.carriersAhead ∧
      (8 * s.regs.bcnt.toNat ≤ s.carriersAhead →
        t.regs.status = s.regs.status &&& 0xFFFFFF00#32 ∧ s.regs.pos.toNat ≤ t.regs.pos.toNat ∧
        t.regs.pos.toNat ≤ s.regs.m.toNat ∧
        s.carriersWithin (t.regs.pos.toNat - s.regs.pos.toNat) = 8 * s.regs.bcnt.toNat ∧
        ∀ d, d < t.regs.pos.toNat - s.regs.pos.toNat → s.carriersWithin d < 8 * s.regs.bcnt.toNat) ∧
      (s.carriersAhead < 8 * s.regs.bcnt.toNat →
        t.regs.status = (s.regs.status &&& 0xFFFFFF00#32) ||| 3#32 ∧ t.regs.pos = s.regs.m)

/-- BP.WRITE leaves bits 15:1 of every coefficient word, and a word it changes was a carrier named by an entry it visited
(20_memory.md R69; 42_bitpacker.md R166); SEQ, FB and every register but POS, BITCNT and STATUS are unchanged, and of STATUS
all but ERR. -/
def Obligations.BpWriteChangesOnlyBitZeroOfVisitedCarriers : Prop :=
  ∀ s : State,
    ∃ t, exec .bpWrite s = .next t ∧
      t = { s with
        coef := t.coef
        regs := { s.regs with pos := t.regs.pos, bitcnt := t.regs.bitcnt, status := t.regs.status } } ∧
      t.regs.status &&& 0xFFFFFF00#32 = s.regs.status &&& 0xFFFFFF00#32 ∧
      ∀ i, t.coefAt i &&& 0xFFFE#16 = s.coefAt i &&& 0xFFFE#16 ∧
        (t.coefAt i ≠ s.coefAt i → isCarrier s.regs.minmag (s.coefAt i) = true ∧
          ∃ k, s.regs.pos.toNat ≤ k ∧ k < t.regs.pos.toNat ∧ (s.seqAt k).toNat = i)

/-- Of the entries BP.WRITE visits, each carrier takes in bit 0 the stream bit whose number is the count of carriers before
it, bit 7 - (k mod 8) of FB[BOFF + k div 8], and each skipped coefficient is unchanged; so is every coefficient no visited
entry names (20_memory.md R61; 42_bitpacker.md R150 to R154; decisions D11, D12 of the spec). -/
def Obligations.BpWritePlacesStreamBitsOnCarriers : Prop :=
  ∀ s : State, svOf s.regs.status = true → s.SequenceValid →
    s.regs.boff.toNat + s.regs.bcnt.toNat ≤ s.params.fbcap →
    ∃ t, exec .bpWrite s = .next t ∧
      (∀ d, s.regs.pos.toNat + d < t.regs.pos.toNat →
        t.coefOfEntry (s.regs.pos.toNat + d) =
          if isCarrier s.regs.minmag (s.coefOfEntry (s.regs.pos.toNat + d)) then
            (s.coefOfEntry (s.regs.pos.toNat + d) &&& 0xFFFE#16) |||
              if (s.fbAt (s.regs.boff.toNat + s.carriersWithin d / 8)).getLsbD (7 - s.carriersWithin d % 8)
              then 1#16 else 0#16
          else s.coefOfEntry (s.regs.pos.toNat + d)) ∧
      ∀ i, (∀ k, s.regs.pos.toNat ≤ k → k < t.regs.pos.toNat → (s.seqAt k).toNat ≠ i) → t.coefAt i = s.coefAt i

/-- BP.READ stores the complete bytes it has read: carrier number q gives bit 7 - (q mod 8) of FB[BOFF + q div 8]; every byte
outside the complete ones is unchanged, the one of an incomplete last byte among them; COEF, SEQ and every register but POS,
BITCNT and STATUS are unchanged, and of STATUS all but ERR (42_bitpacker.md R154, R160, R161; decision D15 of the spec). -/
def Obligations.BpReadStoresCarrierBitsAsWholeBytes : Prop :=
  ∀ s : State, s.params.wellFormed = true → svOf s.regs.status = true →
    s.regs.boff.toNat + s.regs.bcnt.toNat ≤ s.params.fbcap →
    ∃ t, exec .bpRead s = .next t ∧
      t = { s with
        fb := t.fb
        regs := { s.regs with pos := t.regs.pos, bitcnt := t.regs.bitcnt, status := t.regs.status } } ∧
      t.regs.status &&& 0xFFFFFF00#32 = s.regs.status &&& 0xFFFFFF00#32 ∧
      (∀ d, s.regs.pos.toNat + d < t.regs.pos.toNat →
        isCarrier s.regs.minmag (s.coefOfEntry (s.regs.pos.toNat + d)) = true →
        s.carriersWithin d < 8 * (t.regs.bitcnt.toNat / 8) →
        (t.fbAt (s.regs.boff.toNat + s.carriersWithin d / 8)).getLsbD (7 - s.carriersWithin d % 8) =
          (s.coefOfEntry (s.regs.pos.toNat + d)).getLsbD 0) ∧
      ∀ a, (a < s.regs.boff.toNat ∨ s.regs.boff.toNat + t.regs.bitcnt.toNat / 8 ≤ a) → t.fbAt a = s.fbAt a

/-- Replacing bit 0 of a coefficient with `b` gives `2 * floor(c / 2) + b`, a value at most 1 away; the bit read is `c mod 2`
(42_bitpacker.md R152, R153; decision D11 of the spec). -/
def Obligations.BitReplacementArithmetic : Prop :=
  ∀ (c : Coef) (b : Bool),
    (withLsb c b).toInt = 2 * (c.toInt / 2) + (if b then 1 else 0) ∧
    ((withLsb c b).toInt - c.toInt).natAbs ≤ 1 ∧
    (lsb c = true ↔ c.toInt % 2 = 1) ∧ lsb (withLsb c b) = b

/-- A bit write takes a carrier below the threshold in exactly two cases: threshold odd, value equal to it, bit 0; threshold
even and at least 2, value its negative, bit 1 (42_bitpacker.md R163). -/
def Obligations.ThresholdCrossingCases : Prop :=
  ∀ (t : Word) (c : Coef) (b : Bool), t.toNat ≤ c.toInt.natAbs →
    ((withLsb c b).toInt.natAbs < t.toNat ↔
      (t.toNat % 2 = 1 ∧ c.toInt = t.toNat ∧ b = false) ∨
      (t.toNat % 2 = 0 ∧ 2 ≤ t.toNat ∧ c.toInt = -(t.toNat : Int) ∧ b = true))

/-- After a successful BP.WRITE, a BP.READ from the same cursor with the same registers, into any frame buffer, succeeds, ends
at the same cursor and returns the bytes written, if and only if no carrier written has fallen below the threshold
(42_bitpacker.md R162). -/
def Obligations.ReadMirrorsWriteExactlyWithoutCrossing : Prop :=
  ∀ (s t u : State) (fb : List Host.Cell), s.params.wellFormed = true → svOf s.regs.status = true → s.SequenceValid →
    s.regs.pos.toNat ≤ s.regs.m.toNat → s.regs.boff.toNat + s.regs.bcnt.toNat ≤ s.params.fbcap →
    exec .bpWrite s = .next t → errOf t.regs.status = 0#8 →
    exec .bpRead { t with fb := fb, regs := { t.regs with pos := s.regs.pos } } = .next u →
    ((errOf u.regs.status = 0#8 ∧ u.regs.pos = t.regs.pos ∧
        ∀ j, j < s.regs.bcnt.toNat → u.fbAt (s.regs.boff.toNat + j) = s.fbAt (s.regs.boff.toNat + j)) ↔
      ∀ k, s.regs.pos.toNat ≤ k → k < t.regs.pos.toNat → isCarrier s.regs.minmag (s.coefOfEntry k) = true →
        isCarrier s.regs.minmag (t.coefOfEntry k) = true)

/-- Writing A bytes and then B bytes with two BP.WRITE commands and no rewind leaves the COEF and POS of one BP.WRITE of A + B
bytes (42_bitpacker.md R167). -/
def Obligations.SplitWriteContinues : Prop :=
  ∀ (s t u w : State) (a b : Word), s.params.wellFormed = true → svOf s.regs.status = true →
    s.regs.pos.toNat ≤ s.regs.m.toNat → s.regs.boff.toNat + a.toNat + b.toNat ≤ s.params.fbcap →
    exec .bpWrite { s with regs := { s.regs with bcnt := a } } = .next t →
    exec .bpWrite { t with regs := { t.regs with boff := s.regs.boff + a, bcnt := b } } = .next u →
    exec .bpWrite { s with regs := { s.regs with bcnt := a + b } } = .next w →
    (∀ i, u.coefAt i = w.coefAt i) ∧ u.regs.pos = w.regs.pos

/-- Reading A bytes and then B bytes with two BP.READ commands and no rewind leaves the FB and POS of one BP.READ of A + B
bytes (42_bitpacker.md R167). -/
def Obligations.SplitReadContinues : Prop :=
  ∀ (s t u w : State) (a b : Word), s.params.wellFormed = true → svOf s.regs.status = true →
    s.regs.pos.toNat ≤ s.regs.m.toNat → s.regs.boff.toNat + a.toNat + b.toNat ≤ s.params.fbcap →
    exec .bpRead { s with regs := { s.regs with bcnt := a } } = .next t →
    exec .bpRead { t with regs := { t.regs with boff := s.regs.boff + a, bcnt := b } } = .next u →
    exec .bpRead { s with regs := { s.regs with bcnt := a + b } } = .next w →
    (∀ x, u.fbAt x = w.fbAt x) ∧ u.regs.pos = w.regs.pos

/-- With a sequence over the AC positions below n, BP.WRITE changes no coefficient at a multiple of 64 and none from n on
(42_bitpacker.md R166). -/
def Obligations.DcAndLaterPositionsUntouched : Prop :=
  ∀ (s : State) (n : Nat), ListsAcPositions s.sequenceEntries n → s.regs.pos.toNat ≤ s.regs.m.toNat →
    ∃ t, exec .bpWrite s = .next t ∧ ∀ i, i % 64 = 0 ∨ n ≤ i → t.coefAt i = s.coefAt i

/-- From POS = 0, BP.WRITE succeeds exactly when at least 8 * BCNT AC positions below n hold a coefficient of magnitude at
least MINMAG (46_host_sequences.md R226). -/
def Obligations.CapacityDecidesWriteFromStart : Prop :=
  ∀ (s : State) (n : Nat), s.params.wellFormed = true → svOf s.regs.status = true →
    ListsAcPositions s.sequenceEntries n → s.regs.pos = 0#32 →
    s.regs.boff.toNat + s.regs.bcnt.toNat ≤ s.params.fbcap →
    ∃ t, exec .bpWrite s = .next t ∧
      (errOf t.regs.status = 0#8 ↔
        8 * s.regs.bcnt.toNat ≤
          ((List.range n).filter
            (fun i => i % 64 ≠ 0 ∧ s.regs.minmag.toNat ≤ (s.coefAt i).toInt.natAbs)).length)

/-- The host's capacity figure is `(count - 64) div 8`, 0 when `count < 64`, where `count` is the number of AC positions whose
coefficient has at least the threshold's magnitude; and it never grows with the threshold (46_host_sequences.md R226, R227;
log 14). -/
def Obligations.CapacityFallsWithThreshold : Prop :=
  ∀ (coefs : List Coef) (t : Word),
    (∀ count : Nat,
      count = ((List.range coefs.length).filter
        (fun i => i % 64 ≠ 0 ∧ t.toNat ≤ (coefs.getD i 0#16).toInt.natAbs)).length →
      carrierCount coefs t = count ∧
      (count < 64 → maxMessageSize coefs t = 0) ∧ (64 ≤ count → maxMessageSize coefs t = (count - 64) / 8)) ∧
    ∀ u : Word, t.toNat ≤ u.toNat → maxMessageSize coefs u ≤ maxMessageSize coefs t

/-! ## FRM -/

/-- FRM.BUILD on a legal length: CRC takes the CRC-32 of the payload, FB[0..3] the length and FB[4..7] the checksum, most
significant byte first, and nothing else changes (43_framer.md R181, R183; 20_memory.md R60; decisions D17 to D20 of the
spec). -/
def Obligations.FrmBuildWritesHeader : Prop :=
  ∀ (s : State) (crc : Word), 1 ≤ s.regs.len.toNat →
    s.regs.len.toNat ≤ min s.regs.maxmsg.toNat (s.params.fbcap - 8) →
    crc = crc32 ((List.range s.regs.len.toNat).map (fun i => s.fbAt (8 + i))) →
    ∃ t, exec .frmBuild s = .next t ∧
      t = { s with
        fb := t.fb, regs := { s.regs with crc := crc, status := s.regs.status &&& 0xFFFFFF00#32 } } ∧
      (∀ j, j < 4 → t.fbAt j = s.regs.len.extractLsb' (24 - 8 * j) 8) ∧
      (∀ j, j < 4 → t.fbAt (4 + j) = crc.extractLsb' (24 - 8 * j) 8) ∧
      ∀ a, 8 ≤ a → t.fbAt a = s.fbAt a

/-- FRM.BUILD with LEN = 0 sets ERR to 1, with LEN above min(MAXMSG, FBCAP - 8) sets ERR to 2, and changes nothing else
(60_exceptions.md R242, R243; decision D19 of the spec). -/
def Obligations.FrmBuildRejectsEmptyAndTooLong : Prop :=
  ∀ s : State,
    (s.regs.len = 0#32 →
      exec .frmBuild s =
        .next { s with regs := { s.regs with status := (s.regs.status &&& 0xFFFFFF00#32) ||| 1#32 } }) ∧
    (s.regs.len ≠ 0#32 → min s.regs.maxmsg.toNat (s.params.fbcap - 8) < s.regs.len.toNat →
      exec .frmBuild s =
        .next { s with regs := { s.regs with status := (s.regs.status &&& 0xFFFFFF00#32) ||| 2#32 } })

/-- FRM.PARSE: with the big-endian length field in 1 to min(MAXMSG, FBCAP - 8), LEN and HCRC take the two fields; otherwise
ERR takes 4 and nothing else changes (43_framer.md R185; 20_memory.md R60; decisions D18, D20 of the spec). -/
def Obligations.FrmParseReadsOrRejectsHeader : Prop :=
  ∀ (s : State) (length checksum : Nat),
    length = (s.fbAt 0).toNat * 2 ^ 24 + (s.fbAt 1).toNat * 2 ^ 16 + (s.fbAt 2).toNat * 2 ^ 8 + (s.fbAt 3).toNat →
    checksum = (s.fbAt 4).toNat * 2 ^ 24 + (s.fbAt 5).toNat * 2 ^ 16 + (s.fbAt 6).toNat * 2 ^ 8 + (s.fbAt 7).toNat →
    (length = 0 ∨ min s.regs.maxmsg.toNat (s.params.fbcap - 8) < length →
      exec .frmParse s =
        .next { s with regs := { s.regs with status := (s.regs.status &&& 0xFFFFFF00#32) ||| 4#32 } }) ∧
    (1 ≤ length → length ≤ min s.regs.maxmsg.toNat (s.params.fbcap - 8) →
      exec .frmParse s = .next { s with regs := { s.regs with
        len := BitVec.ofNat 32 length, hcrc := BitVec.ofNat 32 checksum,
        status := s.regs.status &&& 0xFFFFFF00#32 } })

/-- FRM.CHECK on a payload that lies in FB: CRC takes the computed value; V is set and ERR 0 when it equals HCRC, otherwise V
is cleared and ERR is 5; nothing else changes (43_framer.md R189; 60_exceptions.md R246; decisions D23, D31 of the spec). -/
def Obligations.FrmCheckComparesChecksum : Prop :=
  ∀ (s : State) (crc : Word), 8 + s.regs.len.toNat ≤ s.params.fbcap →
    crc = crc32 ((List.range s.regs.len.toNat).map (fun i => s.fbAt (8 + i))) →
    (crc = s.regs.hcrc →
      exec .frmCheck s = .next { s with regs := { s.regs with
        crc := crc, status := (s.regs.status &&& 0xFFFFFF00#32) ||| 0x200#32 } }) ∧
    (crc ≠ s.regs.hcrc →
      exec .frmCheck s = .next { s with regs := { s.regs with
        crc := crc, status := (s.regs.status &&& 0xFFFFFD00#32) ||| 5#32 } })

/-- The check values of CRC-32: of no bytes, of 00, of "a", of "123456789" and of "hello world" (43_framer.md R180; decision
D17 of the spec). -/
def Obligations.ChecksumCheckValues : Prop :=
  crc32 [] = 0x00000000#32 ∧ crc32 [0x00#8] = 0xD202EF8D#32 ∧ crc32 [0x61#8] = 0xE8B7BE43#32 ∧
  crc32 [0x31#8, 0x32#8, 0x33#8, 0x34#8, 0x35#8, 0x36#8, 0x37#8, 0x38#8, 0x39#8] = 0xCBF43926#32 ∧
  crc32 [0x68#8, 0x65#8, 0x6C#8, 0x6C#8, 0x6F#8, 0x20#8, 0x77#8, 0x6F#8, 0x72#8, 0x6C#8, 0x64#8] = 0x0D4A1185#32

/-- FRM.BUILD on a legal length, then FRM.PARSE, then FRM.CHECK, succeed, restore the same LEN, and leave HCRC = CRC and V = 1
(43_framer.md R192). -/
def Obligations.BuildParseCheckAgree : Prop :=
  ∀ s : State, 1 ≤ s.regs.len.toNat → s.regs.len.toNat ≤ min s.regs.maxmsg.toNat (s.params.fbcap - 8) →
    ∃ a b c, exec .frmBuild s = .next a ∧ exec .frmParse a = .next b ∧ exec .frmCheck b = .next c ∧
      errOf a.regs.status = 0#8 ∧ errOf b.regs.status = 0#8 ∧ errOf c.regs.status = 0#8 ∧
      b.regs.len = s.regs.len ∧ c.regs.len = s.regs.len ∧ c.regs.hcrc = c.regs.crc ∧ vOf c.regs.status = true

/-- FRM.CHECK does not depend on KEY: with another key it does the same, the key apart (43_framer.md R193; 44_obfuscator.md
R204; conflict C2 of the spec). -/
def Obligations.FrmCheckIndependentOfKey : Prop :=
  ∀ (s : State) (key : Word),
    ∃ t, exec .frmCheck s = .next t ∧
      exec .frmCheck { s with regs := { s.regs with key := key } } =
        .next { t with regs := { t.regs with key := key } }

/-! ## OBF -/

/-- OBF.XOR on a payload that lies in FB: payload byte i is combined with byte i mod 4 of KEY, byte 0 being bits 31:24; every
other byte of FB is unchanged, STATUS.ERR is cleared and nothing else changes (44_obfuscator.md R200, R201; 20_memory.md R62;
decision D21 of the spec). -/
def Obligations.ObfXorCombinesPayloadWithKey : Prop :=
  ∀ s : State, 8 + s.regs.len.toNat ≤ s.params.fbcap →
    ∃ t, exec .obfXor s = .next t ∧
      t = { s with fb := t.fb, regs := { s.regs with status := s.regs.status &&& 0xFFFFFF00#32 } } ∧
      (∀ i, i < s.regs.len.toNat →
        t.fbAt (8 + i) = s.fbAt (8 + i) ^^^ s.regs.key.extractLsb' (24 - 8 * (i % 4)) 8) ∧
      ∀ a, a < 8 ∨ 8 + s.regs.len.toNat ≤ a → t.fbAt a = s.fbAt a

/-- Two OBF.XOR commands with the same KEY and LEN leave every byte of FB as it was (44_obfuscator.md R202). -/
def Obligations.ObfXorTwiceRestores : Prop :=
  ∀ s : State,
    ∃ t u, exec .obfXor s = .next t ∧ exec .obfXor t = .next u ∧ ∀ a, u.fbAt a = s.fbAt a

/-! ## The whole machine -/

/-- Every step keeps the invariant: legal capacities, reserved STATUS bits 0, SEQ a sequence of the AC positions while SV is
set, the cursor in the sequence, BITCNT bounded, storages canonical and within their capacities (10_state.md R27, R30, R41;
20_memory.md R65; 41_sequencer.md R137; 42_bitpacker.md R157; log 5). -/
def Obligations.InvariantKeptByEveryStep : Prop := ∀ s t : State, s.Inv → step s = .next t → t.Inv

/-- The invariant holds after reset. -/
def Obligations.InvariantHoldsAtReset : Prop := State.reset.Inv

/-- The error codes each command can leave (60_exceptions.md R241, R247; decisions D22, D23, D38 of the spec). -/
def Obligations.ErrorCodesByCommand : Prop :=
  ∀ (i : Instr) (s t : State), exec i s = .next t →
    errOf t.regs.status ∈
      (match i with
        | .sysNop => [0#8]
        | .sysReset => [0#8]
        | .seqGen => [0#8, 10#8]
        | .bpRewind => [0#8]
        | .bpWrite => [0#8, 3#8, 9#8, 10#8]
        | .bpRead => [0#8, 3#8, 9#8, 10#8]
        | .frmBuild => [0#8, 1#8, 2#8]
        | .frmParse => [0#8, 4#8]
        | .frmCheck => [0#8, 5#8, 10#8]
        | .obfXor => [0#8, 10#8])

/-- SV is set only by a successful SEQ.GEN and cleared only by SYS.RESET; V is written only by FRM.CHECK, 1 exactly when it
succeeds, and by SYS.RESET, which clears it; bits 31:10 stay 0 (10_state.md R30, R32; decisions D22, D31 of the spec). -/
def Obligations.StatusFlagWriters : Prop :=
  ∀ (i : Instr) (s t : State), exec i s = .next t →
    (i ≠ .seqGen → i ≠ .sysReset → svOf t.regs.status = svOf s.regs.status) ∧
    (i = .seqGen → svOf t.regs.status = (svOf s.regs.status || errOf t.regs.status == 0#8)) ∧
    (i = .sysReset → svOf t.regs.status = false ∧ vOf t.regs.status = false) ∧
    (i ≠ .frmCheck → i ≠ .sysReset → vOf t.regs.status = vOf s.regs.status) ∧
    (i = .frmCheck → vOf t.regs.status = (errOf t.regs.status == 0#8)) ∧
    (s.regs.status >>> 10 = 0#32 → t.regs.status >>> 10 = 0#32)

/-- Each command writes only the registers that name it in the column "Written by" (10_state.md R22; decision D3 of the
spec). -/
def Obligations.RegisterWriters : Prop :=
  ∀ (i : Instr) (s t : State), exec i s = .next t →
    match i with
    | .sysNop => t.regs = { s.regs with status := t.regs.status }
    | .sysReset => True
    | .seqGen => t.regs = { s.regs with status := t.regs.status, m := t.regs.m, pos := t.regs.pos }
    | .bpRewind => t.regs = { s.regs with status := t.regs.status, pos := t.regs.pos }
    | .bpWrite => t.regs = { s.regs with status := t.regs.status, pos := t.regs.pos, bitcnt := t.regs.bitcnt }
    | .bpRead => t.regs = { s.regs with status := t.regs.status, pos := t.regs.pos, bitcnt := t.regs.bitcnt }
    | .frmBuild => t.regs = { s.regs with status := t.regs.status, crc := t.regs.crc }
    | .frmParse => t.regs = { s.regs with status := t.regs.status, len := t.regs.len, hcrc := t.regs.hcrc }
    | .frmCheck => t.regs = { s.regs with status := t.regs.status, crc := t.regs.crc }
    | .obfXor => t.regs = { s.regs with status := t.regs.status }

/-- Only BP.WRITE writes COEF, only SEQ.GEN writes SEQ, only BP.READ, FRM.BUILD and OBF.XOR write FB (20_memory.md R66;
10_state.md R41). That no command touches the waiting inputs, the replies or the field of capacities is no rule of the spec:
these fields are the model's own choice (log 1, log 2, log 3). -/
def Obligations.StorageWriters : Prop :=
  ∀ (i : Instr) (s t : State), exec i s = .next t →
    (i ≠ .bpWrite → ∀ x, t.coefAt x = s.coefAt x) ∧ (i ≠ .seqGen → ∀ k, t.seqAt k = s.seqAt k) ∧
    (i ≠ .bpRead → i ≠ .frmBuild → i ≠ .obfXor → ∀ a, t.fbAt a = s.fbAt a) ∧
    t.params = s.params ∧ t.inputs = s.inputs ∧ t.replies = s.replies

/-- Every command gives a next state, in every state (40_host_port.md R118, R119). -/
def Obligations.EveryCommandCompletes : Prop := ∀ (i : Instr) (s : State), ∃ t, exec i s = .next t

/-- The cursor moves only forward under BP.WRITE and BP.READ and never past M; BP.REWIND, SYS.RESET and a successful SEQ.GEN
set it to 0; no other command moves it (10_state.md R27; 40_host_port.md R123; decision D13 of the spec). -/
def Obligations.CursorOnlyMovesForward : Prop :=
  ∀ (i : Instr) (s t : State), exec i s = .next t → s.regs.pos.toNat ≤ s.regs.m.toNat →
    (i = .bpWrite ∨ i = .bpRead →
      s.regs.pos.toNat ≤ t.regs.pos.toNat ∧ t.regs.pos.toNat ≤ t.regs.m.toNat ∧ t.regs.m = s.regs.m) ∧
    (i = .bpRewind ∨ i = .sysReset ∨ (i = .seqGen ∧ errOf t.regs.status = 0#8) → t.regs.pos = 0#32) ∧
    (i ≠ .bpWrite → i ≠ .bpRead → i ≠ .bpRewind → i ≠ .sysReset → i ≠ .seqGen → t.regs.pos = s.regs.pos)
end

