-- ==== Sys2Proof/Laws/State.lean ====
section
/-! SUPPORT. One lemma per field and update of the state: no later proof unfolds a record update. -/

namespace Sys2Proof.Machine

/-! ## Ending a command is setting ERR -/

@[simp] theorem State.raise_eq (s : State) (e : ErrorKind) : s.raise e = s.setErr e.code := rfl
@[simp] theorem State.succeed_eq (s : State) : s.succeed = s.setErr 0#8 := rfl

/-! ## setErr -/

@[simp] theorem State.setErr_params (s : State) (e : Byte) : (s.setErr e).params = s.params := rfl
@[simp] theorem State.setErr_coef (s : State) (e : Byte) : (s.setErr e).coef = s.coef := rfl
@[simp] theorem State.setErr_seq (s : State) (e : Byte) : (s.setErr e).seq = s.seq := rfl
@[simp] theorem State.setErr_fb (s : State) (e : Byte) : (s.setErr e).fb = s.fb := rfl
@[simp] theorem State.setErr_era (s : State) (e : Byte) : (s.setErr e).era = s.era := rfl
@[simp] theorem State.setErr_inputs (s : State) (e : Byte) : (s.setErr e).inputs = s.inputs := rfl
@[simp] theorem State.setErr_replies (s : State) (e : Byte) : (s.setErr e).replies = s.replies := rfl
@[simp] theorem State.setErr_status (s : State) (e : Byte) : (s.setErr e).regs.status = withErr s.regs.status e := rfl
@[simp] theorem State.setErr_n (s : State) (e : Byte) : (s.setErr e).regs.n = s.regs.n := rfl
@[simp] theorem State.setErr_seed (s : State) (e : Byte) : (s.setErr e).regs.seed = s.regs.seed := rfl
@[simp] theorem State.setErr_m (s : State) (e : Byte) : (s.setErr e).regs.m = s.regs.m := rfl
@[simp] theorem State.setErr_pos (s : State) (e : Byte) : (s.setErr e).regs.pos = s.regs.pos := rfl
@[simp] theorem State.setErr_minmag (s : State) (e : Byte) : (s.setErr e).regs.minmag = s.regs.minmag := rfl
@[simp] theorem State.setErr_boff (s : State) (e : Byte) : (s.setErr e).regs.boff = s.regs.boff := rfl
@[simp] theorem State.setErr_bcnt (s : State) (e : Byte) : (s.setErr e).regs.bcnt = s.regs.bcnt := rfl
@[simp] theorem State.setErr_bitcnt (s : State) (e : Byte) : (s.setErr e).regs.bitcnt = s.regs.bitcnt := rfl
@[simp] theorem State.setErr_len (s : State) (e : Byte) : (s.setErr e).regs.len = s.regs.len := rfl
@[simp] theorem State.setErr_hcrc (s : State) (e : Byte) : (s.setErr e).regs.hcrc = s.regs.hcrc := rfl
@[simp] theorem State.setErr_crc (s : State) (e : Byte) : (s.setErr e).regs.crc = s.regs.crc := rfl
@[simp] theorem State.setErr_key (s : State) (e : Byte) : (s.setErr e).regs.key = s.regs.key := rfl
@[simp] theorem State.setErr_maxmsg (s : State) (e : Byte) : (s.setErr e).regs.maxmsg = s.regs.maxmsg := rfl
@[simp] theorem State.setErr_coefAt (s : State) (e : Byte) (i : Nat) : (s.setErr e).coefAt i = s.coefAt i := rfl
@[simp] theorem State.setErr_seqAt (s : State) (e : Byte) (k : Nat) : (s.setErr e).seqAt k = s.seqAt k := rfl
@[simp] theorem State.setErr_fbAt (s : State) (e : Byte) (a : Nat) : (s.setErr e).fbAt a = s.fbAt a := rfl

/-! ## setSv -/

@[simp] theorem State.setSv_params (s : State) (b : Bool) : (s.setSv b).params = s.params := rfl
@[simp] theorem State.setSv_coef (s : State) (b : Bool) : (s.setSv b).coef = s.coef := rfl
@[simp] theorem State.setSv_seq (s : State) (b : Bool) : (s.setSv b).seq = s.seq := rfl
@[simp] theorem State.setSv_fb (s : State) (b : Bool) : (s.setSv b).fb = s.fb := rfl
@[simp] theorem State.setSv_era (s : State) (b : Bool) : (s.setSv b).era = s.era := rfl
@[simp] theorem State.setSv_inputs (s : State) (b : Bool) : (s.setSv b).inputs = s.inputs := rfl
@[simp] theorem State.setSv_replies (s : State) (b : Bool) : (s.setSv b).replies = s.replies := rfl
@[simp] theorem State.setSv_status (s : State) (b : Bool) : (s.setSv b).regs.status = withSv s.regs.status b := rfl
@[simp] theorem State.setSv_n (s : State) (b : Bool) : (s.setSv b).regs.n = s.regs.n := rfl
@[simp] theorem State.setSv_seed (s : State) (b : Bool) : (s.setSv b).regs.seed = s.regs.seed := rfl
@[simp] theorem State.setSv_m (s : State) (b : Bool) : (s.setSv b).regs.m = s.regs.m := rfl
@[simp] theorem State.setSv_pos (s : State) (b : Bool) : (s.setSv b).regs.pos = s.regs.pos := rfl
@[simp] theorem State.setSv_minmag (s : State) (b : Bool) : (s.setSv b).regs.minmag = s.regs.minmag := rfl
@[simp] theorem State.setSv_boff (s : State) (b : Bool) : (s.setSv b).regs.boff = s.regs.boff := rfl
@[simp] theorem State.setSv_bcnt (s : State) (b : Bool) : (s.setSv b).regs.bcnt = s.regs.bcnt := rfl
@[simp] theorem State.setSv_bitcnt (s : State) (b : Bool) : (s.setSv b).regs.bitcnt = s.regs.bitcnt := rfl
@[simp] theorem State.setSv_len (s : State) (b : Bool) : (s.setSv b).regs.len = s.regs.len := rfl
@[simp] theorem State.setSv_hcrc (s : State) (b : Bool) : (s.setSv b).regs.hcrc = s.regs.hcrc := rfl
@[simp] theorem State.setSv_crc (s : State) (b : Bool) : (s.setSv b).regs.crc = s.regs.crc := rfl
@[simp] theorem State.setSv_key (s : State) (b : Bool) : (s.setSv b).regs.key = s.regs.key := rfl
@[simp] theorem State.setSv_maxmsg (s : State) (b : Bool) : (s.setSv b).regs.maxmsg = s.regs.maxmsg := rfl
@[simp] theorem State.setSv_coefAt (s : State) (b : Bool) (i : Nat) : (s.setSv b).coefAt i = s.coefAt i := rfl
@[simp] theorem State.setSv_seqAt (s : State) (b : Bool) (k : Nat) : (s.setSv b).seqAt k = s.seqAt k := rfl
@[simp] theorem State.setSv_fbAt (s : State) (b : Bool) (a : Nat) : (s.setSv b).fbAt a = s.fbAt a := rfl

/-! ## setV -/

@[simp] theorem State.setV_params (s : State) (b : Bool) : (s.setV b).params = s.params := rfl
@[simp] theorem State.setV_coef (s : State) (b : Bool) : (s.setV b).coef = s.coef := rfl
@[simp] theorem State.setV_seq (s : State) (b : Bool) : (s.setV b).seq = s.seq := rfl
@[simp] theorem State.setV_fb (s : State) (b : Bool) : (s.setV b).fb = s.fb := rfl
@[simp] theorem State.setV_era (s : State) (b : Bool) : (s.setV b).era = s.era := rfl
@[simp] theorem State.setV_inputs (s : State) (b : Bool) : (s.setV b).inputs = s.inputs := rfl
@[simp] theorem State.setV_replies (s : State) (b : Bool) : (s.setV b).replies = s.replies := rfl
@[simp] theorem State.setV_status (s : State) (b : Bool) : (s.setV b).regs.status = withV s.regs.status b := rfl
@[simp] theorem State.setV_n (s : State) (b : Bool) : (s.setV b).regs.n = s.regs.n := rfl
@[simp] theorem State.setV_seed (s : State) (b : Bool) : (s.setV b).regs.seed = s.regs.seed := rfl
@[simp] theorem State.setV_m (s : State) (b : Bool) : (s.setV b).regs.m = s.regs.m := rfl
@[simp] theorem State.setV_pos (s : State) (b : Bool) : (s.setV b).regs.pos = s.regs.pos := rfl
@[simp] theorem State.setV_minmag (s : State) (b : Bool) : (s.setV b).regs.minmag = s.regs.minmag := rfl
@[simp] theorem State.setV_boff (s : State) (b : Bool) : (s.setV b).regs.boff = s.regs.boff := rfl
@[simp] theorem State.setV_bcnt (s : State) (b : Bool) : (s.setV b).regs.bcnt = s.regs.bcnt := rfl
@[simp] theorem State.setV_bitcnt (s : State) (b : Bool) : (s.setV b).regs.bitcnt = s.regs.bitcnt := rfl
@[simp] theorem State.setV_len (s : State) (b : Bool) : (s.setV b).regs.len = s.regs.len := rfl
@[simp] theorem State.setV_hcrc (s : State) (b : Bool) : (s.setV b).regs.hcrc = s.regs.hcrc := rfl
@[simp] theorem State.setV_crc (s : State) (b : Bool) : (s.setV b).regs.crc = s.regs.crc := rfl
@[simp] theorem State.setV_key (s : State) (b : Bool) : (s.setV b).regs.key = s.regs.key := rfl
@[simp] theorem State.setV_maxmsg (s : State) (b : Bool) : (s.setV b).regs.maxmsg = s.regs.maxmsg := rfl
@[simp] theorem State.setV_coefAt (s : State) (b : Bool) (i : Nat) : (s.setV b).coefAt i = s.coefAt i := rfl
@[simp] theorem State.setV_seqAt (s : State) (b : Bool) (k : Nat) : (s.setV b).seqAt k = s.seqAt k := rfl
@[simp] theorem State.setV_fbAt (s : State) (b : Bool) (a : Nat) : (s.setV b).fbAt a = s.fbAt a := rfl

/-! ## answer -/

@[simp] theorem State.answer_params (s : State) (r : Reply) : (s.answer r).params = s.params := rfl
@[simp] theorem State.answer_regs (s : State) (r : Reply) : (s.answer r).regs = s.regs := rfl
@[simp] theorem State.answer_coef (s : State) (r : Reply) : (s.answer r).coef = s.coef := rfl
@[simp] theorem State.answer_seq (s : State) (r : Reply) : (s.answer r).seq = s.seq := rfl
@[simp] theorem State.answer_fb (s : State) (r : Reply) : (s.answer r).fb = s.fb := rfl
@[simp] theorem State.answer_era (s : State) (r : Reply) : (s.answer r).era = s.era := rfl
@[simp] theorem State.answer_inputs (s : State) (r : Reply) : (s.answer r).inputs = s.inputs := rfl
@[simp] theorem State.answer_replies (s : State) (r : Reply) : (s.answer r).replies = r :: s.replies := rfl

/-! ## hardwareReset -/

@[simp] theorem State.hardwareReset_params (s : State) : s.hardwareReset.params = s.params := rfl
@[simp] theorem State.hardwareReset_regs (s : State) : s.hardwareReset.regs = Regs.reset s.params := rfl
@[simp] theorem State.hardwareReset_coef (s : State) : s.hardwareReset.coef = [] := rfl
@[simp] theorem State.hardwareReset_seq (s : State) : s.hardwareReset.seq = [] := rfl
@[simp] theorem State.hardwareReset_fb (s : State) : s.hardwareReset.fb = [] := rfl
@[simp] theorem State.hardwareReset_era (s : State) : s.hardwareReset.era = s.era + 1 := rfl
@[simp] theorem State.hardwareReset_inputs (s : State) : s.hardwareReset.inputs = s.inputs := rfl
@[simp] theorem State.hardwareReset_replies (s : State) : s.hardwareReset.replies = s.replies := rfl

/-! ## endTransfer -/

/-- The error code a transfer that moved `k` bits ends with. -/
theorem State.endTransfer_eq (s : State) (pos k : Nat) :
    s.endTransfer pos k =
      { s with regs := { s.regs with
          pos := BitVec.ofNat 32 pos, bitcnt := BitVec.ofNat 32 k,
          status := withErr s.regs.status (if k < s.bitsOwed then 3#8 else 0#8) } } := by
  unfold State.endTransfer; split <;> rfl

@[simp] theorem State.endTransfer_params (s : State) (pos k : Nat) : (s.endTransfer pos k).params = s.params := by
  simp [State.endTransfer_eq]
@[simp] theorem State.endTransfer_coef (s : State) (pos k : Nat) : (s.endTransfer pos k).coef = s.coef := by
  simp [State.endTransfer_eq]
@[simp] theorem State.endTransfer_seq (s : State) (pos k : Nat) : (s.endTransfer pos k).seq = s.seq := by
  simp [State.endTransfer_eq]
@[simp] theorem State.endTransfer_fb (s : State) (pos k : Nat) : (s.endTransfer pos k).fb = s.fb := by
  simp [State.endTransfer_eq]
@[simp] theorem State.endTransfer_era (s : State) (pos k : Nat) : (s.endTransfer pos k).era = s.era := by
  simp [State.endTransfer_eq]
@[simp] theorem State.endTransfer_inputs (s : State) (pos k : Nat) : (s.endTransfer pos k).inputs = s.inputs := by
  simp [State.endTransfer_eq]
@[simp] theorem State.endTransfer_replies (s : State) (pos k : Nat) : (s.endTransfer pos k).replies = s.replies := by
  simp [State.endTransfer_eq]

end Sys2Proof.Machine
end

