-- ==== Sys2Proof/Laws/Flags.lean ====
section
/-! SUPPORT. The fields of a STATUS word are independent of each other. -/

namespace Sys2Proof.Machine

/-- A bit of a STATUS word whose ERR was replaced. -/
theorem getLsbD_withErr (st : Word) (e : Byte) (i : Nat) :
    (withErr st e).getLsbD i = if i < 8 then e.getLsbD i else st.getLsbD i := by
  by_cases h : i < 32
  · interval_cases i <;> simp [withErr]
  · have : ¬ i < 8 := by omega
    simp [this, BitVec.getLsbD_of_ge _ i (by omega : 32 ≤ i)]

/-- A bit of a STATUS word whose SV was replaced. -/
theorem getLsbD_withSv (st : Word) (b : Bool) (i : Nat) :
    (withSv st b).getLsbD i = if i = 8 then b else st.getLsbD i := by
  by_cases h : i < 32
  · cases b <;> interval_cases i <;> simp [withSv]
  · have : i ≠ 8 := by omega
    simp [this, BitVec.getLsbD_of_ge _ i (by omega : 32 ≤ i)]

/-- A bit of a STATUS word whose V was replaced. -/
theorem getLsbD_withV (st : Word) (b : Bool) (i : Nat) :
    (withV st b).getLsbD i = if i = 9 then b else st.getLsbD i := by
  by_cases h : i < 32
  · cases b <;> interval_cases i <;> simp [withV]
  · have : i ≠ 9 := by omega
    simp [this, BitVec.getLsbD_of_ge _ i (by omega : 32 ≤ i)]

@[simp] theorem svOf_withErr (st : Word) (e : Byte) : svOf (withErr st e) = svOf st := by
  rw [svOf, getLsbD_withErr, if_neg (by decide), svOf]

@[simp] theorem vOf_withErr (st : Word) (e : Byte) : vOf (withErr st e) = vOf st := by
  rw [vOf, getLsbD_withErr, if_neg (by decide), vOf]

@[simp] theorem svOf_withSv (st : Word) (b : Bool) : svOf (withSv st b) = b := by
  rw [svOf, getLsbD_withSv, if_pos rfl]

@[simp] theorem vOf_withSv (st : Word) (b : Bool) : vOf (withSv st b) = vOf st := by
  rw [vOf, getLsbD_withSv, if_neg (by decide), vOf]

@[simp] theorem vOf_withV (st : Word) (b : Bool) : vOf (withV st b) = b := by
  rw [vOf, getLsbD_withV, if_pos rfl]

@[simp] theorem svOf_withV (st : Word) (b : Bool) : svOf (withV st b) = svOf st := by
  rw [svOf, getLsbD_withV, if_neg (by decide), svOf]

@[simp] theorem errOf_withErr (st : Word) (e : Byte) : errOf (withErr st e) = e := by
  ext i hi
  simp only [← BitVec.getLsbD_eq_getElem]
  simp [errOf, getLsbD_withErr, hi]

@[simp] theorem errOf_withSv (st : Word) (b : Bool) : errOf (withSv st b) = errOf st := by
  ext i hi
  simp only [← BitVec.getLsbD_eq_getElem]
  have : i ≠ 8 := by omega
  simp [errOf, getLsbD_withSv, hi, this]

@[simp] theorem errOf_withV (st : Word) (b : Bool) : errOf (withV st b) = errOf st := by
  ext i hi
  simp only [← BitVec.getLsbD_eq_getElem]
  have : i ≠ 9 := by omega
  simp [errOf, getLsbD_withV, hi, this]

/-- The reserved bits of a STATUS word are 0 exactly when every bit from 10 on is (10_state.md R30). -/
theorem reserved_zero_iff (st : Word) : st >>> 10 = 0#32 ↔ ∀ i, 10 ≤ i → st.getLsbD i = false := by
  constructor
  · intro h i hi
    have := congrArg (fun w => w.getLsbD (i - 10)) h
    simpa [BitVec.getLsbD_ushiftRight, Nat.add_sub_cancel' hi] using this
  · intro h
    ext i hi
    simp only [← BitVec.getLsbD_eq_getElem]
    simp [BitVec.getLsbD_ushiftRight, h]

/-- Replacing ERR leaves the reserved bits as they are. -/
theorem reserved_withErr (st : Word) (e : Byte) (h : st >>> 10 = 0#32) : withErr st e >>> 10 = 0#32 := by
  rw [reserved_zero_iff] at *
  intro i hi
  rw [getLsbD_withErr, if_neg (by omega)]
  exact h i hi

/-- Replacing SV leaves the reserved bits as they are. -/
theorem reserved_withSv (st : Word) (b : Bool) (h : st >>> 10 = 0#32) : withSv st b >>> 10 = 0#32 := by
  rw [reserved_zero_iff] at *
  intro i hi
  rw [getLsbD_withSv, if_neg (by omega)]
  exact h i hi

/-- Replacing V leaves the reserved bits as they are. -/
theorem reserved_withV (st : Word) (b : Bool) (h : st >>> 10 = 0#32) : withV st b >>> 10 = 0#32 := by
  rw [reserved_zero_iff] at *
  intro i hi
  rw [getLsbD_withV, if_neg (by omega)]
  exact h i hi

/-- A later ERR replaces an earlier one. -/
@[simp] theorem withErr_withErr (st : Word) (e f : Byte) : withErr (withErr st e) f = withErr st f := by
  ext i hi
  simp only [← BitVec.getLsbD_eq_getElem, getLsbD_withErr]
  split <;> rfl

/-- SV and ERR may be written in either order. -/
theorem withSv_withErr (st : Word) (e : Byte) (b : Bool) : withSv (withErr st e) b = withErr (withSv st b) e := by
  ext i hi
  simp only [← BitVec.getLsbD_eq_getElem, getLsbD_withErr, getLsbD_withSv]
  split <;> split <;> first | rfl | omega

/-! ## The same fields as masks -/

theorem withErr_zero (st : Word) : withErr st 0#8 = st &&& 0xFFFFFF00#32 := by simp [withErr]

/-- Replacing ERR leaves bits 31:8. -/
@[simp] theorem withErr_and_mask (st : Word) (e : Byte) : withErr st e &&& 0xFFFFFF00#32 = st &&& 0xFFFFFF00#32 := by
  ext i hi
  interval_cases i <;> simp [withErr]

/-- The STATUS word of a successful SEQ.GEN. -/
theorem withErr_withSv_true (st : Word) : withErr (withSv st true) 0#8 = (st &&& 0xFFFFFF00#32) ||| 0x100#32 := by
  ext i hi
  interval_cases i <;> simp [withErr, withSv]

/-- The STATUS word of a successful FRM.CHECK. -/
theorem withErr_withV_true (st : Word) : withErr (withV st true) 0#8 = (st &&& 0xFFFFFF00#32) ||| 0x200#32 := by
  ext i hi
  interval_cases i <;> simp [withErr, withV]

/-- The STATUS word of a failing FRM.CHECK. -/
theorem withErr_withV_false (st : Word) (e : Byte) :
    withErr (withV st false) e = (st &&& 0xFFFFFD00#32) ||| e.setWidth 32 := by
  ext i hi
  interval_cases i <;> simp [withErr, withV]

end Sys2Proof.Machine
end

