-- ==== Sys2Proof/Laws/Storage.lean ====
section
/-! SUPPORT. Reading after writing, writing elsewhere, and the canonical form of a storage. -/

namespace Sys2Proof.Machine

variable {w : Nat}

/-- What a location holds after one write. -/
theorem Memory.get?_put (m : Memory w) (a b : Nat) (v : BitVec w) :
    Memory.get? (Memory.put m a v) b = if b = a then some v else Memory.get? m b := by
  induction m with
  | nil => simp only [Memory.put, Memory.get?, eq_comm]
  | cons cell m ih =>
    obtain ⟨c, x⟩ := cell
    unfold Memory.put
    split
    · simp only [Memory.get?, eq_comm]
    · split
      · subst ‹a = c›
        simp only [Memory.get?]
        by_cases hb : b = a
        · simp [hb]
        · simp [hb, Ne.symm hb]
      · simp only [Memory.get?]
        split
        · rw [if_neg (by omega)]
        · exact ih

/-- Read after write: the location written holds the value, every other one holds what it held. -/
theorem Memory.get_put (free : Nat → BitVec w) (m : Memory w) (a b : Nat) (v : BitVec w) :
    Memory.get free (Memory.put m a v) b = if b = a then v else Memory.get free m b := by
  unfold Memory.get
  rw [Memory.get?_put]
  split <;> rfl

@[simp] theorem Memory.get_put_self (free : Nat → BitVec w) (m : Memory w) (a : Nat) (v : BitVec w) :
    Memory.get free (Memory.put m a v) a = v := by
  simp [Memory.get_put]

theorem Memory.get_put_of_ne (free : Nat → BitVec w) (m : Memory w) {a b : Nat} (v : BitVec w) (h : b ≠ a) :
    Memory.get free (Memory.put m a v) b = Memory.get free m b := by
  simp [Memory.get_put, h]

/-- A cell of a storage after one write is the cell written or an old one. -/
theorem Memory.mem_put (m : Memory w) (a : Nat) (v : BitVec w) (cell : Nat × BitVec w)
    (h : cell ∈ Memory.put m a v) : cell = (a, v) ∨ cell ∈ m := by
  induction m with
  | nil => left; simpa [Memory.put] using h
  | cons d m ih =>
    obtain ⟨c, x⟩ := d
    unfold Memory.put at h
    split at h
    · simpa using h
    · split at h
      · rcases List.mem_cons.1 h with h | h
        · exact .inl h
        · exact .inr (List.mem_cons_of_mem _ h)
      · rcases List.mem_cons.1 h with h | h
        · exact .inr (h ▸ List.mem_cons_self)
        · rcases ih h with h | h
          · exact .inl h
          · exact .inr (List.mem_cons_of_mem _ h)

/-- A write keeps the canonical form. -/
theorem Memory.wf_put (m : Memory w) (a : Nat) (v : BitVec w) (h : Memory.wf m) : Memory.wf (Memory.put m a v) := by
  induction m with
  | nil => simp [Memory.put]
  | cons d m ih =>
    obtain ⟨c, x⟩ := d
    obtain ⟨hd, ht⟩ := List.pairwise_cons.1 h
    unfold Memory.put
    split
    · refine List.pairwise_cons.2 ⟨fun y hy => ?_, h⟩
      rcases List.mem_cons.1 hy with rfl | hy
      · assumption
      · exact Nat.lt_trans ‹a < c› (hd y hy)
    · split
      · subst ‹a = c›
        exact List.pairwise_cons.2 ⟨fun y hy => hd y hy, ht⟩
      · refine List.pairwise_cons.2 ⟨fun y hy => ?_, ih ht⟩
        rcases Memory.mem_put m a v y hy with rfl | hy
        · show c < a; omega
        · exact hd y hy

/-- A write below the capacity keeps a storage within its capacity. -/
theorem Memory.Within.put {m : Memory w} {cap a : Nat} (h : Memory.Within m cap) (ha : a < cap) (v : BitVec w) :
    Memory.Within (Memory.put m a v) cap := by
  refine ⟨Memory.wf_put m a v h.1, fun cell hc => ?_⟩
  rcases Memory.mem_put m a v cell hc with rfl | hc
  · exact ha
  · exact h.2 cell hc

theorem Memory.Within.nil (cap : Nat) : Memory.Within ([] : Memory w) cap := ⟨List.Pairwise.nil, by simp⟩

/-- Consecutive writes: the locations written hold the list, every other one holds what it held. -/
theorem Memory.get_putAll (free : Nat → BitVec w) (vs : List (BitVec w)) (m : Memory w) (a b : Nat) :
    Memory.get free (Memory.putAll m a vs) b =
      if a ≤ b then (vs[b - a]?).getD (Memory.get free m b) else Memory.get free m b := by
  induction vs generalizing m a with
  | nil => simp [Memory.putAll]
  | cons v vs ih =>
    rw [Memory.putAll, ih]
    by_cases h : a + 1 ≤ b
    · rw [if_pos h, if_pos (by omega), Memory.get_put_of_ne _ _ _ (by omega)]
      have : b - a = (b - (a + 1)) + 1 := by omega
      rw [this, List.getElem?_cons_succ]
    · rw [if_neg h]
      by_cases hb : b = a
      · subst hb; simp
      · rw [Memory.get_put_of_ne _ _ _ hb, if_neg (by omega)]

/-- Consecutive writes below the capacity keep a storage within its capacity. -/
theorem Memory.Within.putAll {cap : Nat} (vs : List (BitVec w)) {m : Memory w} {a : Nat}
    (h : Memory.Within m cap) (ha : a + vs.length ≤ cap) : Memory.Within (Memory.putAll m a vs) cap := by
  induction vs generalizing m a with
  | nil => exact h
  | cons v vs ih =>
    simp only [List.length_cons] at ha
    exact ih (h.put (by omega) v) (by omega)

/-- A big-endian number written to FB: byte `i` of its `n` bytes is `v / 256^(n-1-i) mod 256`; every other byte keeps what it
held. -/
theorem get_putNumber (free : Nat → Byte) (fb : Memory 8) (a n v b : Nat) :
    Memory.get free (putNumber fb a n v) b =
      if a ≤ b ∧ b < a + n then BitVec.ofNat 8 (v / 256 ^ (n - 1 - (b - a))) else Memory.get free fb b := by
  induction n generalizing v with
  | zero => rw [if_neg (by omega)]; rfl
  | succ n ih =>
    rw [putNumber, Memory.get_put]
    by_cases hb : b = a + n
    · subst hb; simp
    · rw [if_neg hb, ih]
      by_cases hr : a ≤ b ∧ b < a + n
      · rw [if_pos hr, if_pos (by omega), Nat.div_div_eq_div_mul, ← Nat.pow_succ',
          show (n - 1 - (b - a)).succ = n + 1 - 1 - (b - a) by omega]
      · rw [if_neg hr, if_neg (by omega)]

/-- A big-endian number written below the capacity keeps FB within it. -/
theorem within_putNumber {cap : Nat} (fb : Memory 8) (a n v : Nat) (h : Memory.Within fb cap) (ha : a + n ≤ cap) :
    Memory.Within (putNumber fb a n v) cap := by
  induction n generalizing v with
  | zero => exact h
  | succ n ih => exact (ih _ (by omega)).put (by omega) _

/-- The big-endian number of `n` bytes has `n` bytes. -/
theorem State.fbNumber_lt (s : State) (a n : Nat) : s.fbNumber a n < 256 ^ n := by
  induction n with
  | zero => simp [State.fbNumber]
  | succ n ih =>
    have := (s.fbAt (a + n)).isLt
    rw [State.fbNumber, Nat.pow_succ]
    omega

/-- Reading back a big-endian number. -/
theorem State.fbNumber_of_bytes (s : State) (a n v : Nat)
    (h : ∀ i, i < n → s.fbAt (a + i) = BitVec.ofNat 8 (v / 256 ^ (n - 1 - i))) : s.fbNumber a n = v % 256 ^ n := by
  induction n generalizing v with
  | zero => simp [State.fbNumber, Nat.mod_one]
  | succ n ih =>
    have hhead : s.fbNumber a n = v / 256 % 256 ^ n := ih _ (fun i hi => by
      rw [h i (by omega), Nat.div_div_eq_div_mul, ← Nat.pow_succ', show (n - 1 - i).succ = n + 1 - 1 - i by omega])
    have hlast := h n (by omega)
    simp only [Nat.add_sub_cancel, Nat.sub_self, Nat.pow_zero, Nat.div_one] at hlast
    have hpow : 256 ^ (n + 1) = 256 * 256 ^ n := by rw [Nat.pow_succ, Nat.mul_comm]
    rw [State.fbNumber, hhead, hlast, BitVec.toNat_ofNat, hpow, Nat.mod_mul]
    omega

end Sys2Proof.Machine
end

