-- ==== Sys2Proof/Laws/Sequencer.lean ====
section
/-! SUPPORT. What the sequencer's pure function gives: the candidate list, and that the shuffle only rearranges it. -/

namespace Sys2Proof.Machine

theorem mem_candidates (n i : Nat) : i ∈ candidates n ↔ i < n ∧ i % 64 ≠ 0 := by
  simp only [candidates, List.mem_filter, List.mem_range, decide_eq_true_eq]
  rfl

theorem nodup_candidates (n : Nat) : (candidates n).Nodup := List.nodup_range.filter _

theorem sequenceLength_eq (n : Nat) : sequenceLength n = n - (n + 63) / 64 := rfl

/-- The candidate list has the length the spec computes (41_sequencer.md R139). -/
theorem length_candidates (n : Nat) : (candidates n).length = sequenceLength n := by
  rw [sequenceLength_eq]
  induction n with
  | zero => rfl
  | succ n ih =>
    have : candidates (n + 1) = candidates n ++ if n % 64 ≠ 0 then [n] else [] := by
      simp only [candidates, List.range_succ, List.filter_append, Config.blk]
      by_cases h : n % 64 = 0 <;> simp [h]
    rw [this, List.length_append, ih]
    split
    · rw [List.length_singleton]; omega
    · rw [List.length_nil]; omega

@[simp] theorem length_swapEntries (l : List Nat) (i j : Nat) : (swapEntries l i j).length = l.length := by
  simp [swapEntries]

/-- A swap rearranges the list. -/
theorem swapEntries_perm (l : List Nat) {i j : Nat} (hi : i < l.length) (hj : j < l.length) :
    (swapEntries l i j).Perm l := by
  have := List.set_set_perm hi hj
  simpa [swapEntries, List.getD_eq_getElem?_getD, hi, hj] using this

/-- A draw for position `i` lies in 0 to `i` (41_sequencer.md R135). -/
theorem boundedDraw_le (r : Word) (i : Nat) : boundedDraw r i ≤ i := by
  have hr := r.isLt
  have : r.toNat * (i + 1) < 2 ^ 32 * (i + 1) := Nat.mul_lt_mul_of_pos_right hr (by omega)
  exact Nat.le_of_lt_succ (Nat.div_lt_of_lt_mul this)

/-- The shuffle rearranges the list. -/
theorem shuffleFrom_perm (i : Nat) (s : Word) (l : List Nat) (hi : i < l.length ∨ i = 0) :
    (shuffleFrom i s l).Perm l := by
  induction i generalizing s l with
  | zero => exact List.Perm.refl _
  | succ i ih =>
    have hi : i + 1 < l.length := by omega
    have hd := boundedDraw_le (xorshift32 s) (i + 1)
    refine (ih _ _ (.inl ?_)).trans (swapEntries_perm l hi (by omega))
    rw [length_swapEntries]; omega

/-- The embedding sequence is a rearrangement of the candidate list (41_sequencer.md R137). -/
theorem embeddingSequence_perm (n : Nat) (seed : Word) : (embeddingSequence n seed).Perm (candidates n) := by
  apply shuffleFrom_perm
  rw [length_candidates]; omega

@[simp] theorem length_embeddingSequence (n : Nat) (seed : Word) :
    (embeddingSequence n seed).length = sequenceLength n := by
  rw [(embeddingSequence_perm n seed).length_eq, length_candidates]

/-- Every entry of the embedding sequence is an AC position below `n`. -/
theorem mem_embeddingSequence (n : Nat) (seed : Word) (i : Nat) :
    i ∈ embeddingSequence n seed ↔ i < n ∧ i % 64 ≠ 0 := by
  rw [(embeddingSequence_perm n seed).mem_iff, mem_candidates]

theorem nodup_embeddingSequence (n : Nat) (seed : Word) : (embeddingSequence n seed).Nodup :=
  (embeddingSequence_perm n seed).nodup_iff.2 (nodup_candidates n)

theorem sequenceLength_le (n : Nat) : sequenceLength n ≤ n := Nat.sub_le _ _

/-- A longer buffer never has a shorter sequence, so `M <= MMAX` when `N <= NMAX`. -/
theorem sequenceLength_mono {n k : Nat} (h : n ≤ k) : sequenceLength n ≤ sequenceLength k := by
  simp only [sequenceLength_eq]; omega

theorem mmax_eq (p : Params) : p.mmax = sequenceLength p.nmax := rfl

end Sys2Proof.Machine
end

