-- ==== Sys2Proof/Laws/BitPacker.lean ====
section
/-! SUPPORT. What a bit-packer walk does: it makes a number of visits, each of which moves the cursor by one, and stops as soon
as no bit is owed or no entry is left. -/

namespace Sys2Proof.Machine

/-- A carrier is a coefficient whose magnitude is at least the threshold (42_bitpacker.md R151). -/
theorem isCarrier_iff (t : Word) (c : Coef) : isCarrier t c = true ↔ t.toNat ≤ c.toInt.natAbs := by
  rw [isCarrier, Bool.not_eq_true', decide_eq_false_iff_not, Nat.not_lt]
  rfl

/-! ## Bit 0 of a coefficient -/

/-- The word written keeps bits 15:1 (20_memory.md R69). -/
theorem getLsbD_withLsb (c : Coef) (b : Bool) (i : Nat) :
    (withLsb c b).getLsbD i = if i = 0 then b else c.getLsbD i := by
  by_cases h : i < 16
  · cases b <;> interval_cases i <;> simp [withLsb]
  · have : i ≠ 0 := by omega
    simp [this, BitVec.getLsbD_of_ge _ i (by omega : 16 ≤ i)]

@[simp] theorem lsb_withLsb (c : Coef) (b : Bool) : lsb (withLsb c b) = b := by
  rw [lsb, getLsbD_withLsb, if_pos rfl]

@[simp] theorem withLsb_lsb (c : Coef) : withLsb c (lsb c) = c := by
  ext i hi
  simp only [← BitVec.getLsbD_eq_getElem, getLsbD_withLsb, lsb]
  split
  · subst ‹i = 0›; rfl
  · rfl

@[simp] theorem withLsb_withLsb (c : Coef) (a b : Bool) : withLsb (withLsb c a) b = withLsb c b := by
  ext i hi
  simp only [← BitVec.getLsbD_eq_getElem, getLsbD_withLsb]
  split <;> rfl

/-! ## The writing walk -/

/-- The writing walk after `d` visits. -/
def State.writeIter (s : State) : Nat → WriteWalk
  | 0 => { pos := s.regs.pos.toNat, k := 0, coef := s.coef }
  | d + 1 => s.writeVisit (s.writeIter d)

/-- What one visit of BP.WRITE does: it skips, or it writes a bit (42_bitpacker.md R151). -/
theorem State.writeVisit_cases (s : State) (w : WriteWalk) :
    (isCarrier s.regs.minmag (Memory.get (Config.freeCoef s.era) w.coef (s.seqAt w.pos).toNat) = false ∧
      s.writeVisit w = { w with pos := w.pos + 1 }) ∨
    (isCarrier s.regs.minmag (Memory.get (Config.freeCoef s.era) w.coef (s.seqAt w.pos).toNat) = true ∧
      s.writeVisit w =
        { pos := w.pos + 1, k := w.k + 1,
          coef := Memory.put w.coef (s.seqAt w.pos).toNat
            (withLsb (Memory.get (Config.freeCoef s.era) w.coef (s.seqAt w.pos).toNat) (s.streamBit w.k)) }) := by
  unfold State.writeVisit
  dsimp only
  split
  · exact .inr ⟨‹_›, rfl⟩
  · exact .inl ⟨Bool.eq_false_iff.2 ‹_›, rfl⟩

@[simp] theorem State.writeIter_pos (s : State) (d : Nat) : (s.writeIter d).pos = s.regs.pos.toNat + d := by
  induction d with
  | zero => rfl
  | succ d ih =>
    rcases s.writeVisit_cases (s.writeIter d) with ⟨-, h⟩ | ⟨-, h⟩ <;> rw [State.writeIter, h] <;> simp only [ih] <;> omega

/-- A visit moves at most one bit. -/
theorem State.writeIter_k_succ (s : State) (d : Nat) :
    (s.writeIter d).k ≤ (s.writeIter (d + 1)).k ∧ (s.writeIter (d + 1)).k ≤ (s.writeIter d).k + 1 := by
  rcases s.writeVisit_cases (s.writeIter d) with ⟨-, h⟩ | ⟨-, h⟩ <;> rw [State.writeIter, h] <;> dsimp only <;> omega

/-- The walk from the state after `d` visits stops after some more: at the end of its entries, or as soon as no bit is owed. -/
theorem State.writeWalk_eq (s : State) (left d : Nat) :
    ∃ e, d ≤ e ∧ e ≤ d + left ∧ s.writeWalk left (s.writeIter d) = s.writeIter e ∧
      (e < d + left → s.bitsOwed ≤ (s.writeIter e).k) ∧ ∀ f, d ≤ f → f < e → (s.writeIter f).k < s.bitsOwed := by
  induction left generalizing d with
  | zero => exact ⟨d, Nat.le_refl _, Nat.le_refl _, rfl, fun h => by omega, fun f h1 h2 => by omega⟩
  | succ left ih =>
    rw [State.writeWalk]
    split
    · obtain ⟨e, h1, h2, h3, h4, h5⟩ := ih (d + 1)
      refine ⟨e, by omega, by omega, h3, fun h => h4 (by omega), fun f hf1 hf2 => ?_⟩
      by_cases hfd : f = d
      · subst hfd; assumption
      · exact h5 f (by omega) hf2
    · exact ⟨d, Nat.le_refl _, by omega, rfl, fun _ => by omega, fun f h1 h2 => by omega⟩

/-- BP.WRITE's walk: the number of visits it makes, and why it stops there (42_bitpacker.md R155). -/
theorem State.fullWriteWalk_eq (s : State) :
    ∃ d, d ≤ s.entriesLeft ∧ s.fullWriteWalk = s.writeIter d ∧
      (d < s.entriesLeft → s.bitsOwed ≤ (s.writeIter d).k) ∧ ∀ e, e < d → (s.writeIter e).k < s.bitsOwed := by
  obtain ⟨d, -, h2, h3, h4, h5⟩ := s.writeWalk_eq s.entriesLeft 0
  exact ⟨d, by omega, h3, fun h => h4 (by omega), fun e he => h5 e (Nat.zero_le _) he⟩

/-- A walk that stops where it should has not moved more bits than it owes. -/
theorem State.writeIter_k_le (s : State) (d : Nat) (h : ∀ e, e < d → (s.writeIter e).k < s.bitsOwed) :
    (s.writeIter d).k ≤ s.bitsOwed := by
  cases d with
  | zero => exact Nat.zero_le _
  | succ d =>
    have := h d (by omega)
    have := (s.writeIter_k_succ d).2
    omega

/-- The coefficient at an index after `d` visits: unchanged, or a carrier at the start whose entry has been visited, with
bits 15:1 kept (20_memory.md R69; 42_bitpacker.md R166). -/
theorem State.writeIter_coef (s : State) (d i : Nat) :
    Memory.get (Config.freeCoef s.era) (s.writeIter d).coef i = s.coefAt i ∨
    ((∃ e, e < d ∧ (s.seqAt (s.regs.pos.toNat + e)).toNat = i) ∧ isCarrier s.regs.minmag (s.coefAt i) = true ∧
      ∃ b, Memory.get (Config.freeCoef s.era) (s.writeIter d).coef i = withLsb (s.coefAt i) b) := by
  induction d with
  | zero => exact .inl rfl
  | succ d ih =>
    rw [State.writeIter]
    rcases s.writeVisit_cases (s.writeIter d) with ⟨-, h⟩ | ⟨hc, h⟩
    · rw [h]
      rcases ih with ih | ⟨⟨e, he, hi⟩, hcar, hb⟩
      · exact .inl ih
      · exact .inr ⟨⟨e, by omega, hi⟩, hcar, hb⟩
    · rw [h]
      dsimp only
      rw [Memory.get_put]
      simp only [State.writeIter_pos] at hc ⊢
      split
      · subst ‹i = _›
        refine .inr ⟨⟨d, by omega, rfl⟩, ?_⟩
        rcases ih with ih | ⟨-, hcar, b, hb⟩
        · rw [ih] at hc ⊢; exact ⟨hc, _, rfl⟩
        · rw [hb]; exact ⟨hcar, _, withLsb_withLsb _ _ _⟩
      · rcases ih with ih | ⟨⟨e, he, hi⟩, hcar, hb⟩
        · exact .inl ih
        · exact .inr ⟨⟨e, by omega, hi⟩, hcar, hb⟩

/-- The entries a walk of `d` visits meets name different coefficients. -/
def State.EntriesDistinct (s : State) (d : Nat) : Prop :=
  ∀ e f, e < f → f < d → (s.seqAt (s.regs.pos.toNat + e)).toNat ≠ (s.seqAt (s.regs.pos.toNat + f)).toNat

@[simp] theorem State.length_sequenceEntries (s : State) : s.sequenceEntries.length = s.regs.m.toNat := by
  simp [State.sequenceEntries]

/-- An entry below M is in the list of entries. -/
theorem State.seqAt_mem (s : State) {k : Nat} (h : k < s.regs.m.toNat) : (s.seqAt k).toNat ∈ s.sequenceEntries :=
  List.mem_map.2 ⟨k, List.mem_range.2 h, rfl⟩

/-- A list of entries without repeats: a walk never meets the same coefficient twice (42_bitpacker.md R159). -/
theorem State.entriesDistinct_of_nodup (s : State) {d : Nat} (h : s.sequenceEntries.Nodup) (hd : d ≤ s.entriesLeft) :
    s.EntriesDistinct d := by
  intro e f hef hfd heq
  unfold State.entriesLeft at hd
  have he : s.regs.pos.toNat + e < s.sequenceEntries.length := by rw [s.length_sequenceEntries]; omega
  have hf : s.regs.pos.toNat + f < s.sequenceEntries.length := by rw [s.length_sequenceEntries]; omega
  have : s.regs.pos.toNat + e = s.regs.pos.toNat + f := by
    apply (List.Nodup.getElem_inj_iff h (hi := he) (hj := hf)).1
    simpa [State.sequenceEntries] using heq
  omega

/-- With SV set, the entries of a valid sequence do not repeat. -/
theorem State.SequenceValid.nodup {s : State} (h : s.SequenceValid) (hsv : svOf s.regs.status = true) :
    s.sequenceEntries.Nodup := by
  unfold State.SequenceValid at h
  rw [if_pos hsv] at h
  obtain ⟨_, -, -, hl⟩ := h
  exact hl.1

theorem State.carriersWithin_succ (s : State) (d : Nat) :
    s.carriersWithin (d + 1) =
      s.carriersWithin d + if isCarrier s.regs.minmag (s.coefOfEntry (s.regs.pos.toNat + d)) then 1 else 0 := by
  unfold State.carriersWithin
  rw [List.range_succ, List.filter_append, List.length_append]
  by_cases h : isCarrier s.regs.minmag (s.coefOfEntry (s.regs.pos.toNat + d)) <;> simp [h]

@[simp] theorem State.carriersWithin_zero (s : State) : s.carriersWithin 0 = 0 := rfl

theorem State.carriersWithin_mono (s : State) {d e : Nat} (h : d ≤ e) : s.carriersWithin d ≤ s.carriersWithin e := by
  induction h with
  | refl => exact Nat.le_refl _
  | step _ ih => rw [State.carriersWithin_succ]; omega

/-- When the entries differ, a visit finds the coefficient that was there at the start, so the walk moves one bit per carrier. -/
theorem State.writeIter_distinct (s : State) (d : Nat) (h : s.EntriesDistinct d) :
    (s.writeIter d).k = s.carriersWithin d ∧
    (∀ i, (∀ e, e < d → (s.seqAt (s.regs.pos.toNat + e)).toNat ≠ i) →
      Memory.get (Config.freeCoef s.era) (s.writeIter d).coef i = s.coefAt i) ∧
    ∀ e, e < d →
      Memory.get (Config.freeCoef s.era) (s.writeIter d).coef (s.seqAt (s.regs.pos.toNat + e)).toNat =
        if isCarrier s.regs.minmag (s.coefOfEntry (s.regs.pos.toNat + e)) then
          withLsb (s.coefOfEntry (s.regs.pos.toNat + e)) (s.streamBit (s.carriersWithin e))
        else s.coefOfEntry (s.regs.pos.toNat + e) := by
  induction d with
  | zero => exact ⟨rfl, fun i _ => rfl, fun e he => by omega⟩
  | succ d ih =>
    obtain ⟨hk, hother, hseen⟩ := ih (fun e f h1 h2 => h e f h1 (by omega))
    have hfresh := hother (s.seqAt (s.regs.pos.toNat + d)).toNat (fun e he => h e d he (by omega))
    have hnew : ∀ e, e < d → (s.seqAt (s.regs.pos.toNat + e)).toNat ≠ (s.seqAt (s.regs.pos.toNat + d)).toNat :=
      fun e he => h e d he (by omega)
    rw [State.carriersWithin_succ]
    have hv := s.writeVisit_cases (s.writeIter d)
    simp only [State.writeIter_pos, hfresh] at hv
    rw [State.writeIter]
    rcases hv with ⟨hc, hv⟩ | ⟨hc, hv⟩
    · rw [hv]
      have hc' : isCarrier s.regs.minmag (s.coefOfEntry (s.regs.pos.toNat + d)) = false := hc
      refine ⟨by simp [hk, hc'], fun i hi => hother i (fun e he => hi e (by omega)), fun e he => ?_⟩
      by_cases hed : e = d
      · subst hed; rw [hc']; exact hfresh
      · exact hseen e (by omega)
    · rw [hv]
      have hc' : isCarrier s.regs.minmag (s.coefOfEntry (s.regs.pos.toNat + d)) = true := hc
      refine ⟨by simp [hk, hc'], fun i hi => ?_, fun e he => ?_⟩
      · rw [Memory.get_put_of_ne _ _ _ (Ne.symm (hi d (by omega)))]
        exact hother i (fun e he => hi e (by omega))
      · by_cases hed : e = d
        · subst hed; simp [hc', hk]; rfl
        · dsimp only
          rw [Memory.get_put_of_ne _ _ _ (hnew e (by omega))]
          exact hseen e (by omega)

/-- Writing within the indices of a storage keeps COEF within it. -/
theorem State.writeIter_within (s : State) (d cap : Nat) (hs : Memory.Within s.coef cap)
    (h : ∀ e, e < d → (s.seqAt (s.regs.pos.toNat + e)).toNat < cap) : Memory.Within (s.writeIter d).coef cap := by
  induction d with
  | zero => exact hs
  | succ d ih =>
    have hd := ih (fun e he => h e (by omega))
    rw [State.writeIter]
    rcases s.writeVisit_cases (s.writeIter d) with ⟨-, hv⟩ | ⟨-, hv⟩
    · rw [hv]; exact hd
    · rw [hv]; refine hd.put ?_ _; rw [State.writeIter_pos]; exact h d (by omega)

/-! ## The reading walk -/

/-- The reading walk after `d` visits. -/
def State.readIter (s : State) : Nat → ReadWalk
  | 0 => { pos := s.regs.pos.toNat, k := 0, acc := 0#8, fb := s.fb }
  | d + 1 => s.readVisit (s.readIter d)

/-- The shift register after one more bit (42_bitpacker.md R160). -/
def shiftIn (acc : Byte) (b : Bool) : Byte := (acc <<< 1) ||| (BitVec.ofBool b).setWidth 8

/-- What one visit of BP.READ does: it skips, it shifts a bit in, or it completes a byte (42_bitpacker.md R160). -/
theorem State.readVisit_cases (s : State) (w : ReadWalk) :
    (isCarrier s.regs.minmag (s.coefOfEntry w.pos) = false ∧ s.readVisit w = { w with pos := w.pos + 1 }) ∨
    (isCarrier s.regs.minmag (s.coefOfEntry w.pos) = true ∧ (w.k + 1) % 8 ≠ 0 ∧
      s.readVisit w =
        { pos := w.pos + 1, k := w.k + 1, acc := shiftIn w.acc (lsb (s.coefOfEntry w.pos)), fb := w.fb }) ∨
    (isCarrier s.regs.minmag (s.coefOfEntry w.pos) = true ∧ (w.k + 1) % 8 = 0 ∧
      s.readVisit w =
        { pos := w.pos + 1, k := w.k + 1, acc := 0#8,
          fb := Memory.put w.fb (s.regs.boff.toNat + (w.k + 1) / 8 - 1)
            (shiftIn w.acc (lsb (s.coefOfEntry w.pos))) }) := by
  unfold State.readVisit State.coefOfEntry
  dsimp only
  split
  · split
    · exact .inr (.inr ⟨‹_›, ‹_›, rfl⟩)
    · exact .inr (.inl ⟨‹_›, ‹_›, rfl⟩)
  · exact .inl ⟨Bool.eq_false_iff.2 ‹_›, rfl⟩

@[simp] theorem State.readIter_pos (s : State) (d : Nat) : (s.readIter d).pos = s.regs.pos.toNat + d := by
  induction d with
  | zero => rfl
  | succ d ih =>
    rcases s.readVisit_cases (s.readIter d) with ⟨-, h⟩ | ⟨-, -, h⟩ | ⟨-, -, h⟩ <;> rw [State.readIter, h] <;>
      simp only [ih] <;> omega

/-- COEF does not change during a read, so the walk moves one bit per carrier. -/
@[simp] theorem State.readIter_k (s : State) (d : Nat) : (s.readIter d).k = s.carriersWithin d := by
  induction d with
  | zero => rfl
  | succ d ih =>
    rw [State.carriersWithin_succ]
    have hv := s.readVisit_cases (s.readIter d)
    rw [State.readIter]
    rcases hv with ⟨hc, h⟩ | ⟨hc, -, h⟩ | ⟨hc, -, h⟩ <;> rw [State.readIter_pos] at hc <;> rw [h] <;> simp [ih, hc]

/-- The walk from the state after `d` visits stops after some more: at the end of its entries, or as soon as no bit is owed. -/
theorem State.readWalk_eq (s : State) (left d : Nat) :
    ∃ e, d ≤ e ∧ e ≤ d + left ∧ s.readWalk left (s.readIter d) = s.readIter e ∧
      (e < d + left → s.bitsOwed ≤ s.carriersWithin e) ∧ ∀ f, d ≤ f → f < e → s.carriersWithin f < s.bitsOwed := by
  induction left generalizing d with
  | zero => exact ⟨d, Nat.le_refl _, Nat.le_refl _, rfl, fun h => by omega, fun f h1 h2 => by omega⟩
  | succ left ih =>
    rw [State.readWalk]
    split
    · rename_i hlt
      rw [State.readIter_k] at hlt
      obtain ⟨e, h1, h2, h3, h4, h5⟩ := ih (d + 1)
      refine ⟨e, by omega, by omega, h3, fun h => h4 (by omega), fun f hf1 hf2 => ?_⟩
      by_cases hfd : f = d
      · subst hfd; exact hlt
      · exact h5 f (by omega) hf2
    · rename_i hge
      rw [State.readIter_k] at hge
      exact ⟨d, Nat.le_refl _, by omega, rfl, fun _ => by omega, fun f h1 h2 => by omega⟩

/-- BP.READ's walk: the number of visits it makes, and why it stops there (42_bitpacker.md R155, R160). -/
theorem State.fullReadWalk_eq (s : State) :
    ∃ d, d ≤ s.entriesLeft ∧ s.fullReadWalk = s.readIter d ∧
      (d < s.entriesLeft → s.bitsOwed ≤ s.carriersWithin d) ∧ ∀ e, e < d → s.carriersWithin e < s.bitsOwed := by
  obtain ⟨d, -, h2, h3, h4, h5⟩ := s.readWalk_eq s.entriesLeft 0
  exact ⟨d, by omega, h3, fun h => h4 (by omega), fun e he => h5 e (Nat.zero_le _) he⟩

/-- A walk that stops where it should has not moved more bits than it owes. -/
theorem State.carriersWithin_le_owed (s : State) (d : Nat) (h : ∀ e, e < d → s.carriersWithin e < s.bitsOwed) :
    s.carriersWithin d ≤ s.bitsOwed := by
  cases d with
  | zero => exact Nat.zero_le _
  | succ d =>
    have := h d (by omega)
    rw [State.carriersWithin_succ]
    split <;> omega

/-- The bits moved by `d` visits, given as a list: bit 0 of each carrier in turn (42_bitpacker.md R160). -/
def State.bitsRead (s : State) : Nat → List Bool
  | 0 => []
  | d + 1 =>
    if isCarrier s.regs.minmag (s.coefOfEntry (s.regs.pos.toNat + d)) then
      s.bitsRead d ++ [lsb (s.coefOfEntry (s.regs.pos.toNat + d))]
    else s.bitsRead d

@[simp] theorem State.length_bitsRead (s : State) (d : Nat) : (s.bitsRead d).length = s.carriersWithin d := by
  induction d with
  | zero => rfl
  | succ d ih =>
    rw [State.bitsRead, State.carriersWithin_succ]
    split <;> simp [ih]

/-- A bit shifted in becomes bit 0 and pushes the others up. -/
theorem getLsbD_shiftIn (acc : Byte) (b : Bool) (i : Nat) (hi : i < 8) :
    (shiftIn acc b).getLsbD i = if i = 0 then b else acc.getLsbD (i - 1) := by
  unfold shiftIn
  cases b <;> interval_cases i <;> simp

/-- The bits read so far never disappear. -/
theorem State.bitsRead_prefix (s : State) {d e : Nat} (h : d ≤ e) : s.bitsRead d <+: s.bitsRead e := by
  induction h with
  | refl => exact List.prefix_refl _
  | step _ ih =>
    rw [State.bitsRead]
    split
    · exact ih.trans (List.prefix_append _ _)
    · exact ih

/-- What BP.READ has stored after `d` visits: every complete byte holds its eight bits, most-significant first, the shift
register holds the bits of the incomplete one, and every other byte of FB is as it was (42_bitpacker.md R154, R160, R161). -/
theorem State.readIter_fb (s : State) (d : Nat) :
    (∀ i, i < s.carriersWithin d % 8 →
      (s.readIter d).acc.getLsbD i =
        (s.bitsRead d)[s.carriersWithin d - 1 - i]?.getD false) ∧
    (∀ q, q < 8 * (s.carriersWithin d / 8) →
      (Memory.get (Config.freeFb s.era) (s.readIter d).fb (s.regs.boff.toNat + q / 8)).getLsbD (7 - q % 8) =
        (s.bitsRead d)[q]?.getD false) ∧
    ∀ a, (a < s.regs.boff.toNat ∨ s.regs.boff.toNat + s.carriersWithin d / 8 ≤ a) →
      Memory.get (Config.freeFb s.era) (s.readIter d).fb a = s.fbAt a := by
  induction d with
  | zero =>
    refine ⟨fun i hi => ?_, fun q hq => ?_, fun a _ => rfl⟩
    · simp only [State.carriersWithin_zero] at hi; omega
    · simp only [State.carriersWithin_zero] at hq; omega
  | succ d ih =>
    obtain ⟨hacc, hfb, hout⟩ := ih
    have hlen := s.length_bitsRead d
    have hv := s.readVisit_cases (s.readIter d)
    rw [State.readIter_pos, State.readIter_k] at hv
    rw [State.readIter, State.carriersWithin_succ, State.bitsRead]
    rcases hv with ⟨hc, hv⟩ | ⟨hc, hm, hv⟩ | ⟨hc, hm, hv⟩
    · rw [hv, hc]; exact ⟨hacc, hfb, hout⟩
    all_goals
      rw [hv, hc]
      simp only [if_true]
      have hbit : ∀ j, j < s.carriersWithin d →
          (s.bitsRead d ++ [lsb (s.coefOfEntry (s.regs.pos.toNat + d))])[j]?.getD false =
            (s.bitsRead d)[j]?.getD false := fun j hj => by
        rw [List.getElem?_append_left (by omega)]
      have hlast : (s.bitsRead d ++ [lsb (s.coefOfEntry (s.regs.pos.toNat + d))])[s.carriersWithin d]?.getD false =
          lsb (s.coefOfEntry (s.regs.pos.toNat + d)) := by
        rw [List.getElem?_append_right (by omega), hlen]; simp
    · refine ⟨fun i hi => ?_, fun q hq => ?_, fun a ha => ?_⟩
      · rw [getLsbD_shiftIn _ _ _ (by omega)]
        split
        · subst ‹i = 0›; simp
        · rw [hacc (i - 1) (by omega), show s.carriersWithin d + 1 - 1 - i = s.carriersWithin d - 1 - (i - 1) by omega,
            hbit _ (by omega)]
      · rw [hfb q (by omega), hbit q (by omega)]
      · exact hout a (by omega)
    · refine ⟨fun i hi => by omega, fun q hq => ?_, fun a ha => ?_⟩
      · by_cases hq' : q < 8 * (s.carriersWithin d / 8)
        · rw [Memory.get_put_of_ne _ _ _ (by omega), hfb q hq', hbit q (by omega)]
        · rw [show s.regs.boff.toNat + q / 8 = s.regs.boff.toNat + (s.carriersWithin d + 1) / 8 - 1 by omega,
            Memory.get_put_self, getLsbD_shiftIn _ _ _ (by omega)]
          split
          · rw [show q = s.carriersWithin d by omega, hlast]
          · rw [hacc _ (by omega), show s.carriersWithin d - 1 - (7 - q % 8 - 1) = q by omega, hbit q (by omega)]
      · rw [Memory.get_put_of_ne _ _ _ (by omega)]
        exact hout a (by omega)

/-- Storing whole bytes below the capacity keeps FB within it. -/
theorem State.readIter_within (s : State) (d cap : Nat) (hs : Memory.Within s.fb cap)
    (h : s.regs.boff.toNat + s.carriersWithin d / 8 ≤ cap) : Memory.Within (s.readIter d).fb cap := by
  induction d with
  | zero => exact hs
  | succ d ih =>
    have hmono := s.carriersWithin_mono (Nat.le_add_right d 1)
    have hd := ih (by omega)
    have hv := s.readVisit_cases (s.readIter d)
    rw [State.readIter_pos, State.readIter_k] at hv
    rw [State.readIter]
    rcases hv with ⟨-, hv⟩ | ⟨-, -, hv⟩ | ⟨hc, hm, hv⟩
    · rw [hv]; exact hd
    · rw [hv]; exact hd
    · rw [hv]
      rw [State.carriersWithin_succ, hc] at h
      simp only [if_true] at h
      exact hd.put (by omega) _

/-- Every bit moved comes from one carrier. -/
theorem State.exists_carrier (s : State) (d q : Nat) (h : q < s.carriersWithin d) :
    ∃ e, e < d ∧ isCarrier s.regs.minmag (s.coefOfEntry (s.regs.pos.toNat + e)) = true ∧ s.carriersWithin e = q := by
  induction d with
  | zero => simp at h
  | succ d ih =>
    rw [State.carriersWithin_succ] at h
    by_cases hq : q < s.carriersWithin d
    · obtain ⟨e, h1, h2⟩ := ih hq
      exact ⟨e, by omega, h2⟩
    · split at h
      · exact ⟨d, by omega, ‹_›, by omega⟩
      · omega

/-- The bit a carrier gives stands at the number of carriers before it. -/
theorem State.bitsRead_at (s : State) (d e : Nat) (he : e < d)
    (hc : isCarrier s.regs.minmag (s.coefOfEntry (s.regs.pos.toNat + e)) = true) :
    (s.bitsRead d)[s.carriersWithin e]? = some (lsb (s.coefOfEntry (s.regs.pos.toNat + e))) := by
  have hlen := s.length_bitsRead e
  obtain ⟨r, hr⟩ := s.bitsRead_prefix (show e + 1 ≤ d from he)
  rw [State.bitsRead, if_pos hc] at hr
  rw [← hr, List.getElem?_append_left (by simp [hlen]), List.getElem?_append_right (by omega), hlen]
  simp

/-- What SEQ, M, SV and the capacities alone decide. -/
theorem State.SequenceValid.congr {s t : State} (h : s.SequenceValid)
    (hsv : svOf t.regs.status = svOf s.regs.status) (hm : t.regs.m = s.regs.m) (hseq : ∀ k, t.seqAt k = s.seqAt k)
    (hp : t.params = s.params) : t.SequenceValid := by
  unfold State.SequenceValid State.sequenceEntries at *
  simp only [hsv, hm, hseq, hp]
  exact h

/-- Every entry below M names a location of COEF. -/
theorem State.SequenceValid.seqAt_lt {s : State} (h : s.SequenceValid) {k : Nat} (hk : k < s.regs.m.toNat) :
    (s.seqAt k).toNat < s.params.nmax := by
  unfold State.SequenceValid at h
  split at h
  · obtain ⟨n, hn, -, hl⟩ := h
    have := (hl.2 _).1 (s.seqAt_mem hk)
    omega
  · rw [h] at hk
    exact absurd hk (Nat.not_lt_zero _)

end Sys2Proof.Machine
end

