-- ==== Sys2Proof/Laws/Payload.lean ====
section
/-! SUPPORT. What OBF.XOR and FRM.BUILD leave in FB, and what a payload depends on. -/

namespace Sys2Proof.Machine

/-- OBF.XOR's FB: each payload byte is combined with its keystream byte, every other byte is as it was
(44_obfuscator.md R200). -/
theorem State.get_xorPayload (s : State) (n a : Nat) :
    Memory.get (Config.freeFb s.era) (s.xorPayload n) a =
      if 8 ≤ a ∧ a < 8 + n then s.fbAt a ^^^ keystream s.regs.key (a - 8) else s.fbAt a := by
  induction n with
  | zero => rw [if_neg (by omega)]; rfl
  | succ n ih =>
    rw [State.xorPayload, Memory.get_put, ih, show Config.hdrLen = 8 from rfl]
    by_cases ha : a = 8 + n
    · subst ha; simp
    · rw [if_neg ha]
      by_cases hr : 8 ≤ a ∧ a < 8 + n
      · rw [if_pos hr, if_pos (by omega)]
      · rw [if_neg hr, if_neg (by omega)]

theorem State.xorPayload_within (s : State) (n cap : Nat) (hs : Memory.Within s.fb cap) (h : 8 + n ≤ cap) :
    Memory.Within (s.xorPayload n) cap := by
  induction n with
  | zero => exact hs
  | succ n ih => exact (ih (by omega)).put (by rw [show Config.hdrLen = 8 from rfl]; omega) _

/-- The payload is the bytes at 8 to 8 + length - 1 and nothing else. -/
theorem State.payload_congr (s t : State) (length : Nat) (h : ∀ i, i < length → s.fbAt (8 + i) = t.fbAt (8 + i)) :
    s.payload length = t.payload length := by
  unfold State.payload
  exact List.map_congr_left fun i hi => h i (List.mem_range.1 hi)

/-- FRM.BUILD's FB: bytes 0 to 3 hold the length, bytes 4 to 7 the checksum, every other byte is as it was
(20_memory.md R60; 43_framer.md R181). -/
theorem get_header (free : Nat → Byte) (fb : Memory 8) (length crc a : Nat) :
    Memory.get free (putNumber (putNumber fb 0 4 length) 4 4 crc) a =
      if a < 4 then BitVec.ofNat 8 (length / 256 ^ (3 - a))
      else if a < 8 then BitVec.ofNat 8 (crc / 256 ^ (7 - a)) else Memory.get free fb a := by
  rw [get_putNumber, get_putNumber]
  by_cases h4 : a < 4
  · rw [if_neg (by omega), if_pos (by omega), if_pos h4]; rfl
  · by_cases h8 : a < 8
    · rw [if_pos (by omega), if_neg h4, if_pos h8, show 4 - 1 - (a - 4) = 7 - a by omega]
    · rw [if_neg (by omega), if_neg (by omega), if_neg h4, if_neg h8]

end Sys2Proof.Machine
end

