-- ==== Sys2Proof/Laws/Meanings.lean ====
section
/-! SUPPORT. Each command's meaning as one equation of `exec`, for later proofs to rewrite with. -/

namespace Sys2Proof.Machine

theorem exec_sysNop (s : State) : exec .sysNop s = .next (s.setErr 0#8) := rfl

theorem exec_sysReset (s : State) : exec .sysReset s = .next { s with regs := Regs.reset s.params } := rfl

theorem exec_bpRewind (s : State) :
    exec .bpRewind s = .next ({ s with regs := { s.regs with pos := 0#32 } }.setErr 0#8) := rfl

/-- SEQ.GEN on a length that does not fit COEF. -/
theorem exec_seqGen_badOperand (s : State) (h : s.params.nmax < s.regs.n.toNat) :
    exec .seqGen s = .next (s.setErr 10#8) := by
  simp only [exec, execSeqGen, if_pos h]; rfl

/-- SEQ.GEN on a length that fits. -/
theorem exec_seqGen (s : State) (h : s.regs.n.toNat ≤ s.params.nmax) :
    exec .seqGen s = .next { s with
      seq := Memory.putAll s.seq 0 ((embeddingSequence s.regs.n.toNat s.regs.seed).map (BitVec.ofNat 32))
      regs := { s.regs with
        m := BitVec.ofNat 32 (sequenceLength s.regs.n.toNat), pos := 0#32,
        status := withErr (withSv s.regs.status true) 0#8 } } := by
  simp only [exec, execSeqGen, if_neg (by omega : ¬ s.params.nmax < s.regs.n.toNat)]; rfl

/-- The words SEQ.GEN leaves: entry `k` of the embedding sequence below M, what was there from M on. -/
theorem seqAt_after_seqGen (s : State) (k : Nat) (r : Regs) :
    ({ s with
      seq := Memory.putAll s.seq 0 ((embeddingSequence s.regs.n.toNat s.regs.seed).map (BitVec.ofNat 32))
      regs := r } : State).seqAt k =
      if h : k < (embeddingSequence s.regs.n.toNat s.regs.seed).length then
        BitVec.ofNat 32 (embeddingSequence s.regs.n.toNat s.regs.seed)[k]
      else s.seqAt k := by
  unfold State.seqAt
  rw [Memory.get_putAll, if_pos (Nat.zero_le _), Nat.sub_zero, List.getElem?_map]
  split
  · rw [List.getElem?_eq_getElem ‹_›]; rfl
  · rw [List.getElem?_eq_none (by omega)]; rfl

/-- Why a BP transfer does not start (42_bitpacker.md R158). -/
theorem State.transferError_cases (s : State) :
    (svOf s.regs.status = false ∧ s.transferError = some .noSequence) ∨
    (svOf s.regs.status = true ∧ s.params.fbcap < s.regs.boff.toNat + s.regs.bcnt.toNat ∧
      s.transferError = some .badOperand) ∨
    (svOf s.regs.status = true ∧ s.regs.boff.toNat + s.regs.bcnt.toNat ≤ s.params.fbcap ∧ s.transferError = none) := by
  unfold State.transferError State.bitRangeFits
  by_cases h : svOf s.regs.status
  · by_cases h' : s.regs.boff.toNat + s.regs.bcnt.toNat ≤ s.params.fbcap
    · exact .inr (.inr ⟨h, h', by simp [h, h']⟩)
    · exact .inr (.inl ⟨h, by omega, by simp [h, h']⟩)
  · exact .inl ⟨by simpa using h, by simp [h]⟩

theorem State.transferError_none (s : State) (hsv : svOf s.regs.status = true)
    (hr : s.regs.boff.toNat + s.regs.bcnt.toNat ≤ s.params.fbcap) : s.transferError = none := by
  simp [State.transferError, State.bitRangeFits, hsv, hr]

theorem exec_bpWrite_error (s : State) (e : ErrorKind) (h : s.transferError = some e) :
    exec .bpWrite s = .next (s.setErr e.code) := by
  simp only [exec, execBpWrite, h, State.raise_eq]

theorem exec_bpRead_error (s : State) (e : ErrorKind) (h : s.transferError = some e) :
    exec .bpRead s = .next (s.setErr e.code) := by
  simp only [exec, execBpRead, h, State.raise_eq]

/-- The registers a transfer leaves that visited `d` entries and moved `k` bits. -/
def State.transferRegs (s : State) (d k : Nat) : Regs :=
  { s.regs with
    pos := BitVec.ofNat 32 (s.regs.pos.toNat + d), bitcnt := BitVec.ofNat 32 k,
    status := withErr s.regs.status (if k < s.bitsOwed then 3#8 else 0#8) }

/-- BP.WRITE as a number of visits (42_bitpacker.md R150, R155 to R157). -/
theorem exec_bpWrite (s : State) (h : s.transferError = none) :
    ∃ d, d ≤ s.entriesLeft ∧ (d < s.entriesLeft → s.bitsOwed ≤ (s.writeIter d).k) ∧
      (∀ e, e < d → (s.writeIter e).k < s.bitsOwed) ∧ (s.writeIter d).k ≤ s.bitsOwed ∧
      exec .bpWrite s = .next { s with coef := (s.writeIter d).coef, regs := s.transferRegs d (s.writeIter d).k } := by
  obtain ⟨d, h1, h2, h3, h4⟩ := s.fullWriteWalk_eq
  refine ⟨d, h1, h3, h4, s.writeIter_k_le d h4, ?_⟩
  simp only [exec, execBpWrite, h, h2, State.endTransfer_eq, State.writeIter_pos]
  rfl

/-- BP.READ as a number of visits (42_bitpacker.md R155, R157, R160, R161). -/
theorem exec_bpRead (s : State) (h : s.transferError = none) :
    ∃ d, d ≤ s.entriesLeft ∧ (d < s.entriesLeft → s.bitsOwed ≤ s.carriersWithin d) ∧
      (∀ e, e < d → s.carriersWithin e < s.bitsOwed) ∧ s.carriersWithin d ≤ s.bitsOwed ∧
      exec .bpRead s = .next { s with fb := (s.readIter d).fb, regs := s.transferRegs d (s.carriersWithin d) } := by
  obtain ⟨d, h1, h2, h3, h4⟩ := s.fullReadWalk_eq
  refine ⟨d, h1, h3, h4, s.carriersWithin_le_owed d h4, ?_⟩
  simp only [exec, execBpRead, h, h2, State.endTransfer_eq, State.readIter_pos, State.readIter_k]
  rfl

theorem exec_frmBuild (s : State) :
    exec .frmBuild s = .next (
      if s.regs.len.toNat = 0 then s.setErr 1#8
      else if s.maxEff < s.regs.len.toNat then s.setErr 2#8
      else { s with
        fb := putNumber (putNumber s.fb 0 4 s.regs.len.toNat) 4 4 (crc32 (s.payload s.regs.len.toNat)).toNat
        regs := { s.regs with
          crc := crc32 (s.payload s.regs.len.toNat), status := withErr s.regs.status 0#8 } }) := rfl

theorem exec_frmParse (s : State) :
    exec .frmParse s = .next (
      if s.fbNumber 0 4 = 0 ∨ s.maxEff < s.fbNumber 0 4 then s.setErr 4#8
      else { s with regs := { s.regs with
        len := BitVec.ofNat 32 (s.fbNumber 0 4), hcrc := BitVec.ofNat 32 (s.fbNumber 4 4),
        status := withErr s.regs.status 0#8 } }) := rfl

theorem State.payloadFits_iff (s : State) : s.payloadFits = true ↔ 8 + s.regs.len.toNat ≤ s.params.fbcap :=
  decide_eq_true_iff

theorem exec_frmCheck (s : State) :
    exec .frmCheck s = .next (
      if 8 + s.regs.len.toNat ≤ s.params.fbcap then
        if crc32 (s.payload s.regs.len.toNat) = s.regs.hcrc then
          { s with regs := { s.regs with
            crc := crc32 (s.payload s.regs.len.toNat), status := withErr (withV s.regs.status true) 0#8 } }
        else
          { s with regs := { s.regs with
            crc := crc32 (s.payload s.regs.len.toNat), status := withErr (withV s.regs.status false) 5#8 } }
      else { s with regs := { s.regs with status := withErr (withV s.regs.status false) 10#8 } }) := by
  simp only [exec, execFrmCheck, State.payloadFits_iff]
  split <;> first | (split <;> rfl) | rfl

theorem exec_obfXor (s : State) :
    exec .obfXor s = .next (
      if 8 + s.regs.len.toNat ≤ s.params.fbcap then
        { s with fb := s.xorPayload s.regs.len.toNat
                 regs := { s.regs with status := withErr s.regs.status 0#8 } }
      else s.setErr 10#8) := by
  simp only [exec, execObfXor, State.payloadFits_iff]
  split <;> rfl

/-- The cursor after a walk, as a number. -/
theorem State.pos_toNat (s : State) (d : Nat) (h : d ≤ s.entriesLeft) :
    (BitVec.ofNat 32 (s.regs.pos.toNat + d)).toNat = s.regs.pos.toNat + d := by
  rw [BitVec.toNat_ofNat]
  apply Nat.mod_eq_of_lt
  have := s.regs.m.isLt
  have := s.regs.pos.isLt
  unfold State.entriesLeft at h
  omega

/-- The length of the sequence, as a number. -/
theorem sequenceLength_toNat (n : Word) :
    (BitVec.ofNat 32 (sequenceLength n.toNat)).toNat = sequenceLength n.toNat := by
  rw [BitVec.toNat_ofNat]
  exact Nat.mod_eq_of_lt (Nat.lt_of_le_of_lt (sequenceLength_le _) n.isLt)

/-- How each command can end, said once: every later fact about what a command changes follows from this. -/
theorem exec_cases (i : Instr) (s t : State) (h : exec i s = .next t) :
    match i with
    | .sysNop => t = s.setErr 0#8
    | .sysReset => t = { s with regs := Regs.reset s.params }
    | .seqGen =>
      (s.params.nmax < s.regs.n.toNat ∧ t = s.setErr 10#8) ∨
      (s.regs.n.toNat ≤ s.params.nmax ∧ t = { s with
        seq := Memory.putAll s.seq 0 ((embeddingSequence s.regs.n.toNat s.regs.seed).map (BitVec.ofNat 32))
        regs := { s.regs with
          m := BitVec.ofNat 32 (sequenceLength s.regs.n.toNat), pos := 0#32,
          status := withErr (withSv s.regs.status true) 0#8 } })
    | .bpRewind => t = { s with regs := { s.regs with pos := 0#32 } }.setErr 0#8
    | .bpWrite =>
      (t = s.setErr 9#8 ∨ t = s.setErr 10#8) ∨
      (svOf s.regs.status = true ∧ s.regs.boff.toNat + s.regs.bcnt.toNat ≤ s.params.fbcap ∧
        ∃ d, d ≤ s.entriesLeft ∧ (s.writeIter d).k ≤ s.bitsOwed ∧
          t = { s with coef := (s.writeIter d).coef, regs := s.transferRegs d (s.writeIter d).k })
    | .bpRead =>
      (t = s.setErr 9#8 ∨ t = s.setErr 10#8) ∨
      (svOf s.regs.status = true ∧ s.regs.boff.toNat + s.regs.bcnt.toNat ≤ s.params.fbcap ∧
        ∃ d, d ≤ s.entriesLeft ∧ s.carriersWithin d ≤ s.bitsOwed ∧
          t = { s with fb := (s.readIter d).fb, regs := s.transferRegs d (s.carriersWithin d) })
    | .frmBuild =>
      (t = s.setErr 1#8 ∨ t = s.setErr 2#8) ∨
      (s.regs.len.toNat ≤ s.maxEff ∧ 1 ≤ s.regs.len.toNat ∧ t = { s with
        fb := putNumber (putNumber s.fb 0 4 s.regs.len.toNat) 4 4 (crc32 (s.payload s.regs.len.toNat)).toNat
        regs := { s.regs with
          crc := crc32 (s.payload s.regs.len.toNat), status := withErr s.regs.status 0#8 } })
    | .frmParse =>
      t = s.setErr 4#8 ∨
      t = { s with regs := { s.regs with
        len := BitVec.ofNat 32 (s.fbNumber 0 4), hcrc := BitVec.ofNat 32 (s.fbNumber 4 4),
        status := withErr s.regs.status 0#8 } }
    | .frmCheck =>
      t = { s with regs := { s.regs with
        crc := crc32 (s.payload s.regs.len.toNat), status := withErr (withV s.regs.status true) 0#8 } } ∨
      t = { s with regs := { s.regs with
        crc := crc32 (s.payload s.regs.len.toNat), status := withErr (withV s.regs.status false) 5#8 } } ∨
      t = { s with regs := { s.regs with status := withErr (withV s.regs.status false) 10#8 } }
    | .obfXor =>
      t = s.setErr 10#8 ∨
      (8 + s.regs.len.toNat ≤ s.params.fbcap ∧
        t = { s with fb := s.xorPayload s.regs.len.toNat
                     regs := { s.regs with status := withErr s.regs.status 0#8 } }) := by
  cases i with
  | sysNop => cases h; rfl
  | sysReset => cases h; rfl
  | seqGen =>
    by_cases hn : s.regs.n.toNat ≤ s.params.nmax
    · rw [exec_seqGen s hn] at h; cases h; exact .inr ⟨hn, rfl⟩
    · rw [exec_seqGen_badOperand s (by omega)] at h; cases h; exact .inl ⟨by omega, rfl⟩
  | bpRewind => cases h; rfl
  | bpWrite =>
    rcases s.transferError_cases with ⟨-, hn⟩ | ⟨-, -, hn⟩ | ⟨h1, h2, hn⟩
    · simp only [exec, execBpWrite, hn] at h; cases h; exact .inl (.inl rfl)
    · simp only [exec, execBpWrite, hn] at h; cases h; exact .inl (.inr rfl)
    · obtain ⟨d, hd, -, -, hk, he⟩ := exec_bpWrite s hn
      rw [he] at h; cases h; exact .inr ⟨h1, h2, d, hd, hk, rfl⟩
  | bpRead =>
    rcases s.transferError_cases with ⟨-, hn⟩ | ⟨-, -, hn⟩ | ⟨h1, h2, hn⟩
    · simp only [exec, execBpRead, hn] at h; cases h; exact .inl (.inl rfl)
    · simp only [exec, execBpRead, hn] at h; cases h; exact .inl (.inr rfl)
    · obtain ⟨d, hd, -, -, hk, he⟩ := exec_bpRead s hn
      rw [he] at h; cases h; exact .inr ⟨h1, h2, d, hd, hk, rfl⟩
  | frmBuild =>
    rw [exec_frmBuild] at h
    split at h
    · cases h; exact .inl (.inl rfl)
    · split at h <;> cases h
      · exact .inl (.inr rfl)
      · exact .inr ⟨by omega, by omega, rfl⟩
  | frmParse =>
    rw [exec_frmParse] at h
    split at h <;> cases h
    · exact .inl rfl
    · exact .inr rfl
  | frmCheck =>
    rw [exec_frmCheck] at h
    split at h
    · split at h <;> cases h
      · exact .inl rfl
      · exact .inr (.inl rfl)
    · cases h; exact .inr (.inr rfl)
  | obfXor =>
    rw [exec_obfXor] at h
    split at h <;> cases h
    · exact .inr ⟨‹_›, rfl⟩
    · exact .inl rfl

end Sys2Proof.Machine
end

