-- ==== Sys2Proof/Laws/Decode.lean ====
section
/-! SUPPORT. The opcode map: no two rows overlap, and a word selects a row exactly when it is that row's pattern. -/

namespace Sys2Proof

/-- No word matches two rows (30_encoding.md R93). -/
theorem opcodeTable_rows_differ : opcodeTable.Pairwise (fun a b => a.pattern ≠ b.pattern ∧ a.instr ≠ b.instr) := by
  decide

/-- Every row compares the whole word and stands for its instruction's encoding. -/
theorem opcodeTable_row (row : OpcodeRow) (h : row ∈ opcodeTable) :
    row.mask = 0xFFFFFFFF#32 ∧ row.pattern = encode row.instr := by
  have : ∀ r ∈ opcodeTable, r.mask = 0xFFFFFFFF#32 ∧ r.pattern = encode r.instr := by decide
  exact this row h

theorem and_all_ones (w : Word) : w &&& 0xFFFFFFFF#32 = w := by
  simpa using BitVec.and_allOnes (x := w)

/-- A decoded word is the encoding of the command it selects. -/
theorem encode_of_decode (w : Word) (i : Instr) (h : decode w = .ok i) : encode i = w := by
  unfold decode at h
  split at h
  · rename_i row hrow
    obtain ⟨hm, hp⟩ := opcodeTable_row row (List.mem_of_find?_eq_some hrow)
    have hw := List.find?_some hrow
    simp only [hm, and_all_ones, beq_iff_eq] at hw
    cases h
    rw [hw, hp]
  · split at h <;> cases h

/-- `tableWord` at the one format of the block. -/
theorem tableWord_32 (w : Nat) : tableWord 32 w = some (BitVec.ofNat 32 w) := by
  have : w % 2 ^ 32 < 2 ^ 32 := Nat.mod_lt _ (by decide)
  have hmod : BitVec.ofNat 32 (w % 2 ^ 32) = BitVec.ofNat 32 w := by
    apply BitVec.eq_of_toNat_eq; simp
  rw [tableWord, if_pos this, hmod]

end Sys2Proof
end

