-- ==== Sys2Proof/Laws/Step.lean ====
section
/-! SUPPORT. What one step can do, said once. -/

namespace Sys2Proof.Machine

/-- A write to CMD issues its value as a command word. -/
theorem serve_command (w : Word) (s : State) : serve (.regWrite 0 w) s = issue w s := by
  have h : HostOp.wellFormed s.params (.regWrite 0 w) = true := rfl
  rw [serve, if_pos h]
  rfl

/-- What one served host operation can do. -/
theorem serve_cases (op : HostOp) (s t : State) (h : serve op s = .next t) :
    (∃ r, t = s.answer r) ∨
    (∃ i, exec i s = .next t) ∨
    (t = s.setErr 8#8) ∨
    (∃ v r, t = { s with regs := s.regs.hostWrite v r }) ∨
    t = s ∨
    (∃ i c, i < s.params.nmax ∧ t = { s with coef := Memory.put s.coef i c }) ∨
    (∃ a b, a < s.params.fbcap ∧ t = { s with fb := Memory.put s.fb a b }) := by
  unfold serve at h
  split at h
  · rename_i hwf
    cases op with
    | regRead n => cases h; exact .inl ⟨_, rfl⟩
    | regWrite n v =>
      simp only [regWrite] at h
      split at h
      · unfold issue at h
        split at h
        · exact .inr (.inl ⟨_, h⟩)
        · cases h; exact .inr (.inr (.inl rfl))
      · cases h; exact .inr (.inr (.inr (.inl ⟨_, _, rfl⟩)))
      · cases h; exact .inr (.inr (.inr (.inr (.inl rfl))))
    | coefRead i => cases h; exact .inl ⟨_, rfl⟩
    | coefWrite i c =>
      cases h
      exact .inr (.inr (.inr (.inr (.inr (.inl ⟨i, c, by simpa [HostOp.wellFormed] using hwf, rfl⟩)))))
    | seqRead k => cases h; exact .inl ⟨_, rfl⟩
    | fbRead a => cases h; exact .inl ⟨_, rfl⟩
    | fbWrite a b =>
      cases h
      exact .inr (.inr (.inr (.inr (.inr (.inr ⟨a, b, by simpa [HostOp.wellFormed] using hwf, rfl⟩)))))
  · cases h

/-- What one step can do. -/
theorem step_cases (s t : State) (h : step s = .next t) :
    (s.inputs = [] ∧ t = s) ∨
    (∃ rest, s.inputs = .hardwareReset :: rest ∧ t = { s with inputs := rest }.hardwareReset) ∨
    (∃ op rest, s.inputs = .host op :: rest ∧ serve op { s with inputs := rest } = .next t) := by
  unfold step takeInput at h
  split at h
  · cases h; exact .inl ⟨‹_›, rfl⟩
  · cases h; exact .inr (.inl ⟨_, ‹_›, rfl⟩)
  · exact .inr (.inr ⟨_, _, ‹_›, h⟩)

theorem step_host (s : State) (op : HostOp) (rest : List Input) (h : s.inputs = .host op :: rest) :
    step s = serve op { s with inputs := rest } := by
  unfold step takeInput; rw [h]

theorem step_hardwareReset (s : State) (rest : List Input) (h : s.inputs = .hardwareReset :: rest) :
    step s = .next { s with inputs := rest }.hardwareReset := by
  unfold step takeInput; rw [h]

end Sys2Proof.Machine
end

