-- ==== Sys2Proof/Laws/HostSequences.lean ====
section
/-! SUPPORT. What the host's reads return: the registers and locations they name, with no effect on the block. -/

namespace Sys2Proof.Machine

/-- What a read returns; none for a write. -/
def State.replyTo (s : State) : HostOp → Option Reply
  | .regRead n => some (.reg (s.regRead n))
  | .regWrite _ _ => none
  | .coefRead i => some (.coef (s.coefAt i))
  | .coefWrite _ _ => none
  | .seqRead k => some (.seq (s.seqAt k))
  | .fbRead a => some (.fb (s.fbAt a))
  | .fbWrite _ _ => none

@[simp] theorem State.replyTo_answer (s : State) (r : Reply) (op : HostOp) : (s.answer r).replyTo op = s.replyTo op := by
  cases op <;> rfl

/-- A read that names a location returns its reply and changes nothing else (20_memory.md R68). -/
theorem hostDo_read (op : HostOp) (s : State) (r : Reply) (hw : op.wellFormed s.params = true)
    (hr : s.replyTo op = some r) : hostDo op s = .ok (s.answer r) := by
  unfold hostDo serve
  rw [if_pos hw]
  cases op <;> cases hr <;> rfl

/-- Reads in a row: their replies stand before the earlier ones, the latest first, and nothing else has changed. -/
theorem hostDoAll_reads (ops : List HostOp) (s : State)
    (h : ∀ op ∈ ops, op.wellFormed s.params = true ∧ (s.replyTo op).isSome) :
    hostDoAll ops s = .ok { s with replies := (ops.filterMap s.replyTo).reverse ++ s.replies } := by
  induction ops generalizing s with
  | nil => rfl
  | cons op ops ih =>
    obtain ⟨hw, hs⟩ := h op List.mem_cons_self
    obtain ⟨r, hr⟩ := Option.isSome_iff_exists.1 hs
    have hrest := ih (s.answer r) fun o ho => by simpa using h o (List.mem_cons_of_mem _ ho)
    have hfun : (s.answer r).replyTo = s.replyTo := funext fun o => s.replyTo_answer r o
    rw [hostDoAll, hostDo_read op s r hw hr]
    show hostDoAll ops (s.answer r) = _
    rw [hrest, hfun, List.filterMap_cons_some hr, List.reverse_cons, List.append_assoc]
    rfl

/-- What a row of reads returns to the host: one value per read, in order; only the replies have changed. -/
theorem hostReadAll_eq {α β : Type} (pick : Reply → Option α) (op : β → HostOp) (v : β → α) (l : List β) (s : State)
    (h : ∀ i ∈ l, (op i).wellFormed s.params = true ∧ ∃ r, s.replyTo (op i) = some r ∧ pick r = some (v i)) :
    ∃ t, hostReadAll pick (l.map op) s = .ok (l.map v, t) ∧ t = { s with replies := t.replies } := by
  have hsome : ∀ o ∈ l.map op, o.wellFormed s.params = true ∧ (s.replyTo o).isSome := by
    intro o ho
    obtain ⟨i, hi, rfl⟩ := List.mem_map.1 ho
    obtain ⟨hw, r, hr, -⟩ := h i hi
    exact ⟨hw, by simp [hr]⟩
  have hlen : (l.map op).length = ((l.map op).filterMap s.replyTo).reverse.length := by
    rw [List.length_reverse, List.filterMap_length_eq_length.2 fun o ho => (hsome o ho).2]
  have hvals : ((l.map op).filterMap s.replyTo).filterMap pick = l.map v := by
    rw [List.filterMap_map, List.filterMap_filterMap, ← List.filterMap_eq_map]
    refine List.filterMap_congr fun i hi => ?_
    obtain ⟨-, r, hr, hp⟩ := h i hi
    simp [hr, hp]
  refine ⟨{ s with replies := ((l.map op).filterMap s.replyTo).reverse ++ s.replies }, ?_, rfl⟩
  rw [hostReadAll, hostDoAll_reads _ s hsome]
  dsimp only
  rw [hlen, List.take_left, List.reverse_reverse, hvals]

/-- `RD` returns the register and changes nothing but the replies. -/
theorem hostReadReg_eq (n : Nat) (s : State) : hostReadReg n s = .ok (s.regRead n, s.answer (.reg (s.regRead n))) := rfl

/-- The result buffer the host reads back is `COEF[0], ..., COEF[n-1]` (46_host_sequences.md R221). -/
theorem hostReadCoefs_eq (n : Nat) (s : State) (h : n ≤ s.params.nmax) :
    ∃ t, hostReadCoefs n s = .ok ((List.range n).map s.coefAt, t) ∧ t = { s with replies := t.replies } :=
  hostReadAll_eq _ _ _ _ _ fun _ hi =>
    ⟨decide_eq_true (Nat.lt_of_lt_of_le (List.mem_range.1 hi) h), _, rfl, rfl⟩

/-- The sequence the host reads is `SEQ[0], ..., SEQ[n-1]`. -/
theorem hostReadSeq_eq (n : Nat) (s : State) (h : n ≤ s.params.mmax) :
    ∃ t, hostReadSeq n s = .ok ((List.range n).map s.seqAt, t) ∧ t = { s with replies := t.replies } :=
  hostReadAll_eq _ _ _ _ _ fun _ hi =>
    ⟨decide_eq_true (Nat.lt_of_lt_of_le (List.mem_range.1 hi) h), _, rfl, rfl⟩

/-- The message the host reads is `FB[a], ..., FB[a+n-1]` (46_host_sequences.md R223). -/
theorem hostReadFb_eq (a n : Nat) (s : State) (h : a + n ≤ s.params.fbcap) :
    ∃ t, hostReadFb a n s = .ok ((List.range n).map (fun i => s.fbAt (a + i)), t) ∧
      t = { s with replies := t.replies } :=
  hostReadAll_eq _ _ _ _ _ fun _ hi =>
    ⟨decide_eq_true (Nat.lt_of_lt_of_le (Nat.add_lt_add_left (List.mem_range.1 hi) a) h), _, rfl, rfl⟩

/-- A buffer with its indices, as the range of the indices. -/
theorem zipIdx_eq_map_range (coefs : List Coef) :
    coefs.zipIdx = (List.range coefs.length).map (fun i => (coefs.getD i 0#16, i)) := by
  refine List.ext_getElem (by simp) fun i h _ => ?_
  have hi : i < coefs.length := by simpa using h
  simp [List.getD_eq_getElem?_getD, hi]

/-- The host's count, with the test it makes of each index written out (46_host_sequences.md R226). -/
theorem carrierCount_eq (coefs : List Coef) (t : Word) :
    carrierCount coefs t = ((List.range coefs.length).filter
      (fun i => i % 64 ≠ 0 ∧ t.toNat ≤ (coefs.getD i 0#16).toInt.natAbs)).length := by
  rw [carrierCount, zipIdx_eq_map_range, ← List.countP_eq_length_filter, List.countP_map, List.countP_eq_length_filter]
  refine congrArg List.length (List.filter_congr fun i _ => ?_)
  simp only [Function.comp_apply, isCarrier_iff]
  rfl

end Sys2Proof.Machine
end

