-- ==== Sys2Proof/Laws/PerInstr.lean ====
section
/-! SUPPORT. What holds of every instruction as syntax, one lemma per constructor. -/

namespace Sys2Proof.Laws.OpcodeFields

/-- The unit number of a command (30_encoding.md R90, R93). -/
def unitNumber : Instr → BitVec 4
  | .sysNop => 0#4
  | .sysReset => 0#4
  | .seqGen => 1#4
  | .bpRewind => 2#4
  | .bpWrite => 2#4
  | .bpRead => 2#4
  | .frmBuild => 3#4
  | .frmParse => 3#4
  | .frmCheck => 3#4
  | .obfXor => 4#4

/-- A command is well-formed, its word has a zero upper field, and bits 7:4 select its unit (30_encoding.md R90). -/
def Statement (i : Instr) : Prop :=
  i.wellFormed = true ∧ zeroField (encode i) = 0#24 ∧ unitField (encode i) = unitNumber i

theorem sysNop : Statement .sysNop := by unfold Statement; decide
theorem sysReset : Statement .sysReset := by unfold Statement; decide
theorem seqGen : Statement .seqGen := by unfold Statement; decide
theorem bpRewind : Statement .bpRewind := by unfold Statement; decide
theorem bpWrite : Statement .bpWrite := by unfold Statement; decide
theorem bpRead : Statement .bpRead := by unfold Statement; decide
theorem frmBuild : Statement .frmBuild := by unfold Statement; decide
theorem frmParse : Statement .frmParse := by unfold Statement; decide
theorem frmCheck : Statement .frmCheck := by unfold Statement; decide
theorem obfXor : Statement .obfXor := by unfold Statement; decide

end Sys2Proof.Laws.OpcodeFields
end

