-- ==== Sys2Proof/Tests/Slice0.lean ====
section
/-! SUPPORT. The model's own tests: well-formedness, decoding, one step per vector of 95_test_vectors.md, and for every
statement of Certificates/Slice0/Obligations.lean a state that meets its hypotheses. Expected values come from the spec. -/

namespace Sys2Proof.Tests

open Sys2Proof.Machine

/-! ## Well-formedness: what each check refuses. No term of `Instr` is ill-formed, a command has no operand field -/

theorem test_wellFormed_refuses_nmax_zero : Params.wellFormed { nmax := 0, fbcap := 64 } = false := by decide
theorem test_wellFormed_refuses_nmax_over_word : Params.wellFormed { nmax := 4294967296, fbcap := 64 } = false := by decide
theorem test_wellFormed_refuses_fbcap_of_header_only : Params.wellFormed { nmax := 256, fbcap := 8 } = false := by decide
theorem test_wellFormed_refuses_fbcap_over_limit : Params.wellFormed { nmax := 256, fbcap := 268435457 } = false := by decide
theorem test_wellFormed_accepts_least_and_greatest :
    Params.wellFormed { nmax := 1, fbcap := 9 } ∧ Params.wellFormed { nmax := 4294967295, fbcap := 268435456 } := by decide

/-- The instance of the vectors: NMAX = 256, FBCAP = 64 (95_test_vectors.md). -/
def small : Params := { nmax := 256, fbcap := 64 }

theorem test_wellFormed_refuses_coef_index : ¬ (HostOp.coefRead 256).wellFormed small ∧ (HostOp.coefRead 255).wellFormed small := by decide
theorem test_wellFormed_refuses_coef_write : ¬ (HostOp.coefWrite 256 0#16).wellFormed small ∧ (HostOp.coefWrite 255 0#16).wellFormed small := by decide
theorem test_wellFormed_refuses_seq_index : ¬ (HostOp.seqRead 252).wellFormed small ∧ (HostOp.seqRead 251).wellFormed small := by decide
theorem test_wellFormed_refuses_fb_address : ¬ (HostOp.fbRead 64).wellFormed small ∧ (HostOp.fbRead 63).wellFormed small := by decide
theorem test_wellFormed_refuses_fb_write : ¬ (HostOp.fbWrite 64 0#8).wellFormed small ∧ (HostOp.fbWrite 63 0#8).wellFormed small := by decide

/-! ## Decoding: each command's word, written from the fields of 30_encoding.md R90 and the units and functions of R93 -/

theorem test_decode_sysNop : decode 0b00000000000000000000000000000000#32 = .ok .sysNop := by decide
theorem test_decode_sysReset : decode 0b00000000000000000000000000000001#32 = .ok .sysReset := by decide
theorem test_decode_seqGen : decode 0b00000000000000000000000000010000#32 = .ok .seqGen := by decide
theorem test_decode_bpRewind : decode 0b00000000000000000000000000100000#32 = .ok .bpRewind := by decide
theorem test_decode_bpWrite : decode 0b00000000000000000000000000100001#32 = .ok .bpWrite := by decide
theorem test_decode_bpRead : decode 0b00000000000000000000000000100010#32 = .ok .bpRead := by decide
theorem test_decode_frmBuild : decode 0b00000000000000000000000000110000#32 = .ok .frmBuild := by decide
theorem test_decode_frmParse : decode 0b00000000000000000000000000110001#32 = .ok .frmParse := by decide
theorem test_decode_frmCheck : decode 0b00000000000000000000000000110010#32 = .ok .frmCheck := by decide
theorem test_decode_obfXor : decode 0b00000000000000000000000001000000#32 = .ok .obfXor := by decide

/-- Words that are no command (30_encoding.md R94; program P7 steps 3 and 4 of 95_test_vectors.md). -/
theorem test_decode_rejects_by_name :
    decode 0x00000002#32 = .error (.reservedOpcode 0x02#8) ∧ decode 0x00000110#32 = .error (.zeroFieldSet 0x000001#24) ∧
    decode 0x000000FF#32 = .error (.reservedOpcode 0xFF#8) ∧ decode 0x80000000#32 = .error (.zeroFieldSet 0x800000#24) := by
  decide

/-! ## States of the vectors -/

/-- After hardware reset, with the capacities of the vectors. -/
def start : State := State.resetAt small 0

/-- The state a command leaves. -/
def after (i : Instr) (s : State) : State :=
  match exec i s with
  | .next t => t
  | .fault _ => s
  | .refused _ => s

/-- The state a step leaves. -/
def stepped (s : State) : State :=
  match step s with
  | .next t => t
  | .fault _ => s
  | .refused _ => s

/-- A state whose next and only input is a host operation. -/
def given (s : State) (op : HostOp) : State := { s with inputs := [.host op] }

/-- A storage that holds a list from index `a` on. -/
def listed {w : Nat} (a : Nat) (vs : List (BitVec w)) : Memory w := (List.range vs.length).zip vs |>.map fun x => (a + x.1, x.2)

def coefs (vs : List Int) : Memory 16 := listed 0 (vs.map (BitVec.ofInt 16))
def words (vs : List Nat) : Memory 32 := listed 0 (vs.map (BitVec.ofNat 32))
def bytes (a : Nat) (vs : List Nat) : Memory 8 := listed a (vs.map (BitVec.ofNat 8))

/-- `COEF[0], ..., COEF[n-1]` as signed numbers. -/
def coefList (s : State) (n : Nat) : List Int := (List.range n).map fun i => (s.coefAt i).toInt

/-- `FB[a], ..., FB[a+n-1]` as numbers. -/
def fbList (s : State) (a n : Nat) : List Nat := (List.range n).map fun i => (s.fbAt (a + i)).toNat

/-- 42_bitpacker.md R168 before BP.WRITE: 16 coefficients, threshold 2, FB[0] = A5, FB[1] = FF, one byte to move. -/
def sixteen : State := { start with
  coef := coefs [50, 3, -2, 0, 5, -7, 1, 4, -1, 2, -4, 9, -3, 6, -8, 7]
  seq := words [5, 9, 11, 8, 1, 13, 7, 3, 2, 12, 4, 6, 10, 15, 14]
  fb := bytes 0 [0xA5, 0xFF]
  regs := { start.regs with status := 0x100#32, n := 16#32, m := 15#32, minmag := 2#32, bcnt := 1#32 } }

/-- The same with two bytes to move (42_bitpacker.md R169). -/
def sixteenTwo : State := { sixteen with regs := { sixteen.regs with bcnt := 2#32 } }

/-- Vector V-BP-9 before BP.WRITE with FB[0] = FF: 9 coefficients, threshold 0, exactly eight carriers for one byte. -/
def nine : State := { start with
  coef := coefs [0, -32768, 32767, -1, 0, 1, 2, -2, 3]
  seq := words [6, 1, 4, 2, 3, 5, 8, 7]
  fb := bytes 0 [0xFF]
  regs := { start.regs with status := 0x100#32, n := 9#32, m := 8#32, bcnt := 1#32 } }

/-- `nine` with nine bytes owed, more than its carriers. -/
def nineTwo : State := { nine with regs := { nine.regs with bcnt := 2#32 } }

/-- `nine` with threshold 2: the carrier -2, at the last entry but for the bit 1 it takes a crossing value (V-BP-3). -/
def nineCrossing : State := { nine with
  coef := coefs [0, 4, 4, 4, 4, 4, 4, -2, 4], regs := { nine.regs with minmag := 2#32 } }

/-- After reset with N given. -/
def lengthSet (n : Nat) : State := { start with regs := { start.regs with n := BitVec.ofNat 32 n } }

/-- After reset with LEN given. -/
def payloadSet (n : Nat) : State := { start with regs := { start.regs with len := BitVec.ofNat 32 n } }

/-- After reset with a header in FB. -/
def headerSet (length : Nat) : State := { start with fb := bytes 0 [0, 0, 0, length, 0xD8, 0x93, 0x2A, 0xAC] }

/-! ## One command per vector -/

theorem test_sysNop_clears_err :
    (after .sysNop { start with regs := { start.regs with status := 0x104#32 } }).regs.status = 0x100#32 := by decide

theorem test_sysReset_registers :
    (after .sysReset nine).regs = {
      status := 0#32, n := 0#32, seed := 0x4F757447#32, m := 0#32, pos := 0#32, minmag := 0#32, boff := 0#32, bcnt := 0#32,
      bitcnt := 0#32, len := 0#32, hcrc := 0#32, crc := 0#32, key := 0#32, maxmsg := 56#32 } := by decide

/-- V-SEQ-4. -/
theorem test_seqGen_eight :
    (after .seqGen (lengthSet 8)).sequenceEntries = [1, 3, 5, 2, 4, 6, 7] ∧
    (after .seqGen (lengthSet 8)).regs.status = 0x100#32 := by decide +kernel

/-- V-SEQ-14. -/
theorem test_seqGen_too_long : after .seqGen (lengthSet 257) =
    { lengthSet 257 with regs := { (lengthSet 257).regs with status := 0x00A#32 } } := by decide

/-- V-BP-11. -/
theorem test_bpRewind : (after .bpRewind { sixteen with regs := { sixteen.regs with pos := 10#32, bitcnt := 8#32 } }) =
    { sixteen with regs := { sixteen.regs with bitcnt := 8#32 } } := by decide

/-- V-BP-4. -/
theorem test_bpWrite_one_byte :
    coefList (after .bpWrite sixteen) 16 = [50, 2, -2, 0, 5, -7, 1, 5, -1, 2, -4, 9, -3, 6, -8, 7] ∧
    (after .bpWrite sixteen).regs = { sixteen.regs with pos := 10#32, bitcnt := 8#32 } := by decide +kernel

/-- V-BP-5. -/
theorem test_bpWrite_exhausted :
    coefList (after .bpWrite sixteenTwo) 16 = [50, 2, -2, 0, 5, -7, 1, 5, -1, 2, -3, 9, -3, 6, -7, 7] ∧
    (after .bpWrite sixteenTwo).regs = { sixteenTwo.regs with pos := 15#32, bitcnt := 12#32, status := 0x103#32 } := by
  decide +kernel

/-- V-BP-7, one byte at threshold 0. -/
theorem test_bpRead_one_byte :
    (after .bpRead { sixteen with regs := { sixteen.regs with minmag := 0#32 } }).fb = bytes 0 [0xB8, 0xFF] := by
  decide +kernel

/-- V-BP-7, two bytes at threshold 0. -/
theorem test_bpRead_exhausted :
    after .bpRead { sixteenTwo with regs := { sixteenTwo.regs with minmag := 0#32 } } =
      { sixteenTwo with
        fb := bytes 0 [0xB8, 0xFF]
        regs := { sixteenTwo.regs with minmag := 0#32, pos := 15#32, bitcnt := 15#32, status := 0x103#32 } } := by
  decide +kernel

/-- V-FRM-11. -/
theorem test_frmBuild_hi :
    fbList (after .frmBuild { payloadSet 2 with fb := bytes 8 [0x68, 0x69] }) 0 10 =
      [0x00, 0x00, 0x00, 0x02, 0xD8, 0x93, 0x2A, 0xAC, 0x68, 0x69] := by decide +kernel

/-- P7 step 12. -/
theorem test_frmBuild_too_large : after .frmBuild (payloadSet 57) =
    { payloadSet 57 with regs := { (payloadSet 57).regs with status := 0x002#32 } } := by decide

/-- The header of V-FRM-11 read back. -/
theorem test_frmParse_hi : (after .frmParse (headerSet 2)).regs =
    { start.regs with len := 2#32, hcrc := 0xD8932AAC#32 } := by decide +kernel

/-- P7 step 15. -/
theorem test_frmParse_over_maxmsg :
    (after .frmParse { headerSet 5 with regs := { start.regs with maxmsg := 4#32 } }).regs =
      { start.regs with maxmsg := 4#32, status := 0x004#32 } := by decide +kernel

/-- V-FRM-19. -/
theorem test_frmCheck_empty : (after .frmCheck start).regs = { start.regs with status := 0x200#32 } := by decide

/-- P7 step 14. -/
theorem test_frmCheck_bad_operand_clears_v :
    (after .frmCheck { start with regs := { start.regs with status := 0x30A#32, len := 57#32 } }).regs.status = 0x10A#32 := by
  decide

/-- V-OBF-1. -/
theorem test_obfXor :
    (after .obfXor { start with
      fb := bytes 8 [0x10, 0x20, 0x30, 0x40, 0x50, 0x60], regs := { start.regs with key := 0xA1B2C3D4#32, len := 6#32 } }).fb =
      bytes 8 [0xB1, 0x92, 0xF3, 0x94, 0xF1, 0xD2] := by decide +kernel

/-- V-OBF-6. -/
theorem test_obfXor_too_long : (after .obfXor (payloadSet 57)).regs.status = 0x00A#32 := by decide

/-- Writing over a location and out of order keeps the list in canonical form. -/
theorem test_memory_canonical :
    Memory.put (Memory.put (Memory.put ([] : Memory 8) 5 1#8) 2 7#8) 5 9#8 = [(2, 7#8), (5, 9#8)] := by decide

/-- The crossing check looks at the carriers the walk uses: -2 crosses at threshold 2, is the second carrier and its entry the
third (70_reset_and_hazards.md R291; V-BP-3). -/
theorem test_crossingAhead_of_used_carriers :
    crossingAhead [0#16, 0xFFFE#16, 5#16, 1#16] 2#32 [2#32, 3#32, 1#32] 1 = false ∧
    crossingAhead [0#16, 0xFFFE#16, 5#16, 1#16] 2#32 [2#32, 3#32, 1#32] 2 = true := by decide

/-- `GA(200)` of 95_test_vectors.md. -/
def bufferGA : List Coef := (List.range 200).map fun i =>
  BitVec.ofInt 16 (if i % 64 ≠ 0 ∧ (37 * i + 11) % 41 = 18 then -3 else ((37 * i + 11) % 41 : Nat) - 20)

/-- V-CAP-1 at T = 2, where the figure is not clamped, and at T = 14 and 15, on both sides of no byte left. -/
theorem test_capacity_figure :
    carrierCount bufferGA 2#32 = 182 ∧ maxMessageSize bufferGA 2#32 = 14 ∧ maxMessageSize bufferGA 13#32 = 1 ∧
    maxMessageSize bufferGA 14#32 = 0 ∧ carrierCount bufferGA 15#32 = 59 ∧ maxMessageSize bufferGA 15#32 = 0 := by
  decide +kernel

/-- The step of a state that was given a fetch word. -/
theorem test_fetch_word : (stepped ((lengthSet 8).withFetchWord 32 0x10)).regs.m = 7#32 := by decide +kernel

/-! ## A state for every hypothesis of a statement, one theorem per clause, at the edge of its range -/

theorem nine_entries : nine.sequenceEntries = [6, 1, 4, 2, 3, 5, 8, 7] := by decide +kernel

theorem nine_lists : ListsAcPositions nine.sequenceEntries 9 := by
  rw [nine_entries]
  refine ⟨by decide, fun i => ?_⟩
  simp only [List.mem_cons, List.not_mem_nil, or_false]
  omega

theorem nine_valid : nine.SequenceValid := by
  unfold State.SequenceValid
  rw [if_pos (by decide)]
  exact ⟨9, by decide, by decide, nine_lists⟩

theorem nineCrossing_valid : nineCrossing.SequenceValid := nine_valid.congr rfl rfl (fun _ => rfl) rfl

theorem nineTwo_valid : nineTwo.SequenceValid := nine_valid.congr rfl rfl (fun _ => rfl) rfl

/-- A storage listing is within a capacity when its list says so. -/
theorem within_of_check {w : Nat} (m : Memory w) (cap : Nat) (h : Memory.wf m ∧ m.all (fun c => c.1 < cap) = true) :
    Memory.Within m cap :=
  ⟨h.1, fun c hc => by simpa using List.all_eq_true.1 h.2 c hc⟩

theorem nine_inv : nine.Inv where
  params := by decide
  statusReserved := by decide
  sequence := nine_valid
  cursor := by decide
  bitCount := by decide
  coef := within_of_check _ _ (by decide +kernel)
  seq := within_of_check _ _ (by decide +kernel)
  fb := within_of_check _ _ (by decide +kernel)

theorem start_inv : start.Inv where
  params := by decide
  statusReserved := by decide
  sequence := by unfold State.SequenceValid; rw [if_neg (by decide)]; rfl
  cursor := by decide
  bitCount := by decide
  coef := Memory.Within.nil _
  seq := Memory.Within.nil _
  fb := Memory.Within.nil _

/-- Every command gives a next state in a state: the hypothesis of the statements over all commands. -/
theorem exec_answers (i : Instr) (s : State) : exec i s = .next (after i s) := by cases i <;> rfl

/-- Issuing any word gives a next state. -/
theorem issue_answers (w : Word) (s : State) : ∃ t, issue w s = .next t := by
  unfold issue
  split
  · exact ⟨_, exec_answers _ _⟩
  · exact ⟨_, rfl⟩

/-! ### Encoding, the step, the port -/

theorem witness_IllegalCommandWord :
    ∀ n ∈ [0x00000002, 0x00000110, 0xFFFFFFFF],
      (given start (.regWrite 0 (BitVec.ofNat 32 n))).inputs = .host (.regWrite 0 (BitVec.ofNat 32 n)) :: [] ∧
      BitVec.ofNat 32 n ∉ [0x00000000#32, 0x00000001#32, 0x00000010#32, 0x00000020#32, 0x00000021#32, 0x00000022#32, 0x00000030#32,
        0x00000031#32, 0x00000032#32, 0x00000040#32] := by decide +kernel

theorem witness_StepRunsDecodedCommand :
    (given nine (.regWrite 0 0x21#32)).inputs = .host (.regWrite 0 0x21#32) :: [] ∧ decode 0x21#32 = .ok .bpWrite := by decide

theorem witness_FetchWord :
    decodeTableWord 32 0x40 = some .obfXor ∧ decodeTableWord 32 (2 ^ 32 + 0x40) = some .obfXor ∧
    decodeTableWord 33 (2 ^ 32 + 0x40) = none := by decide

theorem witness_NoInput : start.inputs = [] := rfl

/-- The first index a storage does not have is refused, the last one it has is accepted. -/
theorem witness_StepRefusesOutside :
    (∀ op ∈ [HostOp.coefRead 256, .coefWrite 256 0#16, .seqRead 252, .fbRead 64, .fbWrite 64 0#8],
      (given start op).nextInputAccepted = false) ∧
    (∀ op ∈ [HostOp.coefRead 255, .coefWrite 255 0#16, .seqRead 251, .fbRead 63, .fbWrite 63 0#8],
      (given start op).nextInputAccepted = true) ∧
    step (given start (.seqRead 252)) = .refused .noSuchLocation :=
  ⟨by decide, by decide, by rw [step_host _ (.seqRead 252) [] rfl, serve, if_neg (by decide)]⟩

theorem witness_RegRead :
    ∀ n ∈ [0, 1, 14, 15], (given start (.regRead n)).inputs = .host (.regRead n) :: [] := by decide

theorem witness_RegWrite_readWrite :
    ∀ n ∈ [2, 3, 6, 7, 8, 10, 13, 14],
      (given start (.regWrite n 0xFFFFFFFF#32)).inputs = .host (.regWrite n 0xFFFFFFFF#32) :: [] := by decide

theorem witness_RegWrite_ignored :
    ∀ n ∈ [1, 4, 5, 9, 11, 12, 15, 4294967296],
      (n ∈ [1, 4, 5, 9, 11, 12] ∨ 15 ≤ n) ∧
      (given start (.regWrite n 99#32)).inputs = .host (.regWrite n 99#32) :: [] := by decide

theorem witness_RegWrite_command :
    encode .sysReset = 0x1#32 ∧ (given start (.regWrite 0 0x1#32)).inputs = .host (.regWrite 0 0x1#32) :: [] := by decide

theorem witness_CoefPort :
    255 < start.params.nmax ∧ (given start (.coefRead 255)).inputs = .host (.coefRead 255) :: [] ∧
    (given start (.coefWrite 255 0x8000#16)).inputs = .host (.coefWrite 255 0x8000#16) :: [] := by decide

theorem witness_FramePort :
    63 < start.params.fbcap ∧ (given start (.fbRead 63)).inputs = .host (.fbRead 63) :: [] ∧
    (given start (.fbWrite 63 0xEE#8)).inputs = .host (.fbWrite 63 0xEE#8) :: [] := by decide

theorem witness_SequencePort :
    251 < start.params.nmax - (start.params.nmax + 63) / 64 ∧
    (given nine (.seqRead 251)).inputs = .host (.seqRead 251) :: [] := by decide

/-- A state with the capacities of reset and another register file. -/
theorem witness_ResetValues :
    ({ nine with params := State.reset.params } : State).params = State.reset.params ∧
    ({ nine with params := State.reset.params } : State).regs.n ≠ State.reset.regs.n := ⟨rfl, by decide⟩

theorem witness_HardwareReset :
    ({ nine with inputs := [.hardwareReset, .host (.regRead 1)] } : State).inputs =
      .hardwareReset :: [.host (.regRead 1)] := rfl

/-! ### Errors of several commands, SEQ -/

theorem witness_BadOperand_seqGen : (lengthSet 257).params.nmax < (lengthSet 257).regs.n.toNat := by decide

theorem witness_BadOperand_transfer :
    svOf ({ nine with regs := { nine.regs with boff := 64#32 } } : State).regs.status = true ∧
    nine.params.fbcap < (64#32).toNat + nine.regs.bcnt.toNat := by decide

theorem witness_BadOperand_payload : (payloadSet 57).params.fbcap < 8 + (payloadSet 57).regs.len.toNat := by decide

theorem witness_BadOperand_frmBuild : exec .frmBuild (payloadSet 57) = .next (after .frmBuild (payloadSet 57)) := exec_answers _ _

theorem witness_TransferWithoutSequence : svOf start.regs.status = false := by decide

/-- The longest length that fits, which is also that of the statements on the sequence, its length and the zero seed. -/
theorem witness_SeqGen_longest : (lengthSet 256).regs.n.toNat ≤ (lengthSet 256).params.nmax := by decide

theorem witness_SequenceLength : exec .seqGen (lengthSet 256) = .next (after .seqGen (lengthSet 256)) := exec_answers _ _

theorem witness_SeqGenDependsOnLengthAndSeedOnly :
    (lengthSet 9).regs.n = nine.regs.n ∧ (lengthSet 9).regs.seed = nine.regs.seed ∧
    (lengthSet 9).regs.n.toNat ≤ (lengthSet 9).params.nmax ∧ nine.regs.n.toNat ≤ nine.params.nmax := by decide

theorem witness_DefaultSeedWorkedTrace :
    ∀ n ∈ [8, 9, 16], 16 ≤ (lengthSet n).params.nmax ∧ (lengthSet n).regs.seed = 0x4F757447#32 ∧
      (lengthSet n).regs.n = BitVec.ofNat 32 n := by decide

theorem witness_ShortBuffer :
    ∀ n ∈ [0, 1, 2], (lengthSet n).regs.n.toNat ≤ (lengthSet n).params.nmax ∧
      ((lengthSet n).regs.n.toNat ≤ 1 ∨ (lengthSet n).regs.n = 2#32) := by decide

/-! ### BP -/

/-- No byte to move, at the last legal offset. -/
theorem witness_EmptyTransfer :
    svOf ({ nine with regs := { nine.regs with bcnt := 0#32, boff := 64#32, pos := 8#32 } } : State).regs.status = true ∧
    (64#32).toNat ≤ nine.params.fbcap := by decide

/-- One byte owed and exactly eight carriers ahead: the clause of success at its edge, for both transfers. -/
theorem witness_Transfer_enough :
    nine.params.wellFormed = true ∧ svOf nine.regs.status = true ∧ nine.SequenceValid ∧
    nine.regs.pos.toNat ≤ nine.regs.m.toNat ∧ nine.regs.boff.toNat + nine.regs.bcnt.toNat ≤ nine.params.fbcap ∧
    8 * nine.regs.bcnt.toNat = nine.carriersAhead :=
  ⟨by decide, by decide, nine_valid, by decide, by decide, by decide +kernel⟩

/-- Two bytes owed and eight carriers ahead: the clause of exhaustion, for both transfers. -/
theorem witness_Transfer_exhausted :
    nineTwo.params.wellFormed = true ∧ svOf nineTwo.regs.status = true ∧ nineTwo.SequenceValid ∧
    nineTwo.regs.pos.toNat ≤ nineTwo.regs.m.toNat ∧
    nineTwo.regs.boff.toNat + nineTwo.regs.bcnt.toNat ≤ nineTwo.params.fbcap ∧
    nineTwo.carriersAhead < 8 * nineTwo.regs.bcnt.toNat :=
  ⟨by decide, by decide, nineTwo_valid, by decide, by decide, by decide +kernel⟩

/-- BP.WRITE visits all eight entries of `nine`, so the clause over visited entries has a case. -/
theorem witness_BpWritePlaces_visited :
    (after .bpWrite nine).regs.pos = 8#32 ∧ nine.regs.pos.toNat + 7 < (after .bpWrite nine).regs.pos.toNat := by
  decide +kernel

/-- An entry that names no visited coefficient: index 0 is a DC position. -/
theorem witness_BpWritePlaces_other :
    ∀ k, k < 8 → nine.regs.pos.toNat ≤ k → (nine.seqAt k).toNat ≠ 0 := by decide +kernel

/-- The last carrier BP.READ used belongs to a complete byte. -/
theorem witness_BpReadStores :
    nine.regs.pos.toNat + 7 < (after .bpRead nine).regs.pos.toNat ∧
    isCarrier nine.regs.minmag (nine.coefOfEntry (nine.regs.pos.toNat + 7)) = true ∧
    nine.carriersWithin 7 < 8 * ((after .bpRead nine).regs.bitcnt.toNat / 8) := by decide +kernel

/-- A byte after the complete one is outside the stored bytes. -/
theorem witness_BpReadStores_outside :
    nine.regs.boff.toNat + (after .bpRead nine).regs.bitcnt.toNat / 8 ≤ 1 := by decide +kernel

/-- V-BP-3: the two cases of a crossing, at magnitude equal to the threshold. -/
theorem witness_ThresholdCrossing :
    (3#32).toNat ≤ (3#16 : Coef).toInt.natAbs ∧ (2#32).toNat ≤ (0xFFFE#16 : Coef).toInt.natAbs ∧
    (32768#32).toNat ≤ (0x8000#16 : Coef).toInt.natAbs := by decide

/-- A write and the read back, in the form of the mirror statement. -/
def readBack (s : State) : State := { after .bpWrite s with fb := [], regs := { (after .bpWrite s).regs with pos := s.regs.pos } }

theorem witness_Mirror_no_crossing :
    nine.params.wellFormed = true ∧ svOf nine.regs.status = true ∧ nine.SequenceValid ∧
    nine.regs.pos.toNat ≤ nine.regs.m.toNat ∧ nine.regs.boff.toNat + nine.regs.bcnt.toNat ≤ nine.params.fbcap ∧
    exec .bpWrite nine = .next (after .bpWrite nine) ∧ errOf (after .bpWrite nine).regs.status = 0#8 ∧
    exec .bpRead (readBack nine) = .next (after .bpRead (readBack nine)) ∧
    errOf (after .bpRead (readBack nine)).regs.status = 0#8 :=
  ⟨by decide, by decide, nine_valid, by decide, by decide, exec_answers _ _, by decide +kernel,
    exec_answers _ _, by decide +kernel⟩

theorem witness_Mirror_crossing :
    nineCrossing.params.wellFormed = true ∧ svOf nineCrossing.regs.status = true ∧ nineCrossing.SequenceValid ∧
    nineCrossing.regs.pos.toNat ≤ nineCrossing.regs.m.toNat ∧
    nineCrossing.regs.boff.toNat + nineCrossing.regs.bcnt.toNat ≤ nineCrossing.params.fbcap ∧
    exec .bpWrite nineCrossing = .next (after .bpWrite nineCrossing) ∧
    errOf (after .bpWrite nineCrossing).regs.status = 0#8 ∧
    exec .bpRead (readBack nineCrossing) = .next (after .bpRead (readBack nineCrossing)) ∧
    errOf (after .bpRead (readBack nineCrossing)).regs.status = 3#8 :=
  ⟨by decide, by decide, nineCrossing_valid, by decide, by decide, exec_answers _ _, by decide +kernel,
    exec_answers _ _, by decide +kernel⟩

/-- V-BP-8: one byte and one byte, the second of which exhausts the sequence; for both transfers. -/
theorem witness_Split (i : Instr) :
    sixteen.params.wellFormed = true ∧ svOf sixteen.regs.status = true ∧
    sixteen.regs.pos.toNat ≤ sixteen.regs.m.toNat ∧
    sixteen.regs.boff.toNat + (1#32).toNat + (1#32).toNat ≤ sixteen.params.fbcap ∧
    ∃ t u w, exec i { sixteen with regs := { sixteen.regs with bcnt := 1#32 } } = .next t ∧
      exec i { t with regs := { t.regs with boff := sixteen.regs.boff + 1#32, bcnt := 1#32 } } = .next u ∧
      exec i { sixteen with regs := { sixteen.regs with bcnt := 1#32 + 1#32 } } = .next w :=
  ⟨by decide, by decide, by decide, by decide, _, _, _, exec_answers _ _, exec_answers _ _, exec_answers _ _⟩

theorem witness_DcUntouched : ListsAcPositions nine.sequenceEntries 9 ∧ nine.regs.pos.toNat ≤ nine.regs.m.toNat :=
  ⟨nine_lists, by decide⟩

/-- The capacity clause at its edge: eight bits owed, eight positions of sufficient magnitude. -/
theorem witness_Capacity :
    nine.params.wellFormed = true ∧ svOf nine.regs.status = true ∧ ListsAcPositions nine.sequenceEntries 9 ∧
    nine.regs.pos = 0#32 ∧ nine.regs.boff.toNat + nine.regs.bcnt.toNat ≤ nine.params.fbcap ∧
    8 * nine.regs.bcnt.toNat = ((List.range 9).filter
      (fun i => i % 64 ≠ 0 ∧ nine.regs.minmag.toNat ≤ (nine.coefAt i).toInt.natAbs)).length :=
  ⟨by decide, by decide, nine_lists, by decide, by decide, by decide +kernel⟩

/-- The clamp and the formula each have a buffer, next to each other in the table of V-CAP-1, and the thresholds rise. -/
theorem witness_CapacityFalls :
    ((List.range bufferGA.length).filter
      (fun i => i % 64 ≠ 0 ∧ (15#32).toNat ≤ (bufferGA.getD i 0#16).toInt.natAbs)).length = 59 ∧
    ((List.range bufferGA.length).filter
      (fun i => i % 64 ≠ 0 ∧ (14#32).toNat ≤ (bufferGA.getD i 0#16).toInt.natAbs)).length = 69 ∧
    (14#32).toNat ≤ (14#32).toNat ∧ (14#32).toNat ≤ (15#32).toNat := by decide +kernel

/-- The edge of the clamp itself: a buffer with exactly 64 carriers and one with 63. -/
theorem witness_CapacityFalls_edge :
    ((List.range (List.replicate 66 (2#16 : Coef)).length).filter
      (fun i => i % 64 ≠ 0 ∧ (2#32).toNat ≤ ((List.replicate 66 (2#16 : Coef)).getD i 0#16).toInt.natAbs)).length = 64 ∧
    ((List.range (List.replicate 64 (2#16 : Coef)).length).filter
      (fun i => i % 64 ≠ 0 ∧ (2#32).toNat ≤ ((List.replicate 64 (2#16 : Coef)).getD i 0#16).toInt.natAbs)).length = 63 := by
  decide +kernel

/-! ### FRM, OBF -/

/-- The least and the greatest legal length, for FRM.BUILD and for the three commands in a row. -/
theorem witness_LegalLength :
    ∀ n ∈ [1, 56], 1 ≤ (payloadSet n).regs.len.toNat ∧
      (payloadSet n).regs.len.toNat ≤ min (payloadSet n).regs.maxmsg.toNat ((payloadSet n).params.fbcap - 8) := by decide

theorem witness_FrmBuildWritesHeader_crc :
    ∃ crc, crc = crc32 ((List.range (payloadSet 56).regs.len.toNat).map (fun i => (payloadSet 56).fbAt (8 + i))) := ⟨_, rfl⟩

theorem witness_FrmBuildRejects_empty : (payloadSet 0).regs.len = 0#32 := by decide

theorem witness_FrmBuildRejects_tooLong :
    (payloadSet 57).regs.len ≠ 0#32 ∧
    min (payloadSet 57).regs.maxmsg.toNat ((payloadSet 57).params.fbcap - 8) < (payloadSet 57).regs.len.toNat := by decide

/-- A header field, as the statement on FRM.PARSE writes it. -/
def field (s : State) (a : Nat) : Nat :=
  (s.fbAt a).toNat * 2 ^ 24 + (s.fbAt (a + 1)).toNat * 2 ^ 16 + (s.fbAt (a + 2)).toNat * 2 ^ 8 + (s.fbAt (a + 3)).toNat

/-- The lengths at which the clauses of FRM.PARSE meet: 0 and 57 are rejected, 1 and 56 accepted. -/
theorem witness_FrmParse :
    field (headerSet 0) 0 = 0 ∧ field (headerSet 57) 0 = 57 ∧ field (headerSet 1) 0 = 1 ∧ field (headerSet 56) 0 = 56 ∧
    field (headerSet 56) 4 = 0xD8932AAC ∧
    min (headerSet 56).regs.maxmsg.toNat ((headerSet 56).params.fbcap - 8) = 56 := by decide +kernel

/-- A state whose HCRC is the checksum of its payload. -/
def checksumHeld (s : State) : State :=
  { s with regs := { s.regs with hcrc := crc32 ((List.range s.regs.len.toNat).map (fun i => s.fbAt (8 + i))) } }

theorem checksumHeld_hcrc (s : State) :
    crc32 ((List.range (checksumHeld s).regs.len.toNat).map (fun i => (checksumHeld s).fbAt (8 + i))) =
      (checksumHeld s).regs.hcrc := rfl

/-- The longest payload with the checksum it has; an empty payload with another one. -/
theorem witness_FrmCheck :
    8 + (checksumHeld (payloadSet 56)).regs.len.toNat ≤ (checksumHeld (payloadSet 56)).params.fbcap ∧
    crc32 ((List.range (checksumHeld (payloadSet 56)).regs.len.toNat).map
      (fun i => (checksumHeld (payloadSet 56)).fbAt (8 + i))) = (checksumHeld (payloadSet 56)).regs.hcrc ∧
    8 + start.regs.len.toNat ≤ start.params.fbcap ∧
    crc32 ((List.range start.regs.len.toNat).map (fun i => start.fbAt (8 + i))) ≠ 1#32 :=
  ⟨by decide, checksumHeld_hcrc _, by decide, by decide⟩

theorem witness_ObfXor : 8 + (payloadSet 56).regs.len.toNat ≤ (payloadSet 56).params.fbcap := by decide

/-! ### The whole machine -/

/-- A state with a sequence that meets the invariant and whose step gives a next state. -/
theorem witness_InvariantKept :
    (given nine (.regWrite 0 0x21#32)).Inv ∧
    ∃ t, step (given nine (.regWrite 0 0x21#32)) = .next t :=
  ⟨⟨nine_inv.params, nine_inv.statusReserved, nine_valid.congr rfl rfl (fun _ => rfl) rfl, nine_inv.cursor,
    nine_inv.bitCount, nine_inv.coef, nine_inv.seq, nine_inv.fb⟩,
    by
      rw [step_host _ (.regWrite 0 0x21#32) [] rfl, serve_command]
      exact issue_answers _ _⟩

/-- For the statements over all commands: each gives a next state where it succeeds and where it raises its error. -/
theorem witness_EveryCommand (i : Instr) :
    exec i start = .next (after i start) ∧ exec i nine = .next (after i nine) ∧
    start.regs.status >>> 10 = 0#32 ∧ start.regs.pos.toNat ≤ start.regs.m.toNat ∧ nine.regs.pos.toNat ≤ nine.regs.m.toNat :=
  ⟨exec_answers _ _, exec_answers _ _, by decide, by decide, by decide⟩

end Sys2Proof.Tests
end

section
/-! Family 10_state.md: the reset values, the invariant, and which registers and flags a command writes. -/

namespace Sys2Proof.Machine

/-! ## What keeps the invariant -/

/-- New contents of COEF within its capacity keep the invariant. -/
theorem State.Inv.withCoef {s : State} (h : s.Inv) {coef : Memory 16} (hc : Memory.Within coef s.params.nmax) :
    ({ s with coef := coef } : State).Inv :=
  { h with coef := hc, sequence := h.sequence.congr rfl rfl (fun _ => rfl) rfl }

/-- New contents of FB within its capacity keep the invariant. -/
theorem State.Inv.withFb {s : State} (h : s.Inv) {fb : Memory 8} (hf : Memory.Within fb s.params.fbcap) :
    ({ s with fb := fb } : State).Inv :=
  { h with fb := hf, sequence := h.sequence.congr rfl rfl (fun _ => rfl) rfl }

/-- The queue and the replies are no matter of the invariant (log 1, log 2). -/
theorem State.Inv.withQueue {s : State} (h : s.Inv) (inputs : List Input) (replies : List Reply) :
    ({ s with inputs := inputs, replies := replies } : State).Inv :=
  { h with sequence := h.sequence.congr rfl rfl (fun _ => rfl) rfl }

/-- New registers keep the invariant when M and SV are the old ones and the reserved bits, the cursor and the bit count are
in bounds. -/
theorem State.Inv.withRegs {s : State} (h : s.Inv) {r : Regs} (hm : r.m = s.regs.m)
    (hsv : svOf r.status = svOf s.regs.status) (hres : r.status >>> 10 = 0#32)
    (hpos : r.pos.toNat ≤ s.regs.m.toNat) (hbit : r.bitcnt.toNat ≤ 8 * s.params.fbcap) :
    ({ s with regs := r } : State).Inv :=
  { h with
    statusReserved := hres
    sequence := h.sequence.congr hsv hm (fun _ => rfl) rfl
    cursor := hm ▸ hpos
    bitCount := hbit }

/-- New registers with the old M, cursor and bit count, and a STATUS word that keeps SV and the reserved bits. -/
theorem State.Inv.withOtherRegs {s : State} (h : s.Inv) {r : Regs} (hm : r.m = s.regs.m) (hpos : r.pos = s.regs.pos)
    (hbit : r.bitcnt = s.regs.bitcnt) (hsv : svOf r.status = svOf s.regs.status) (hres : r.status >>> 10 = 0#32) :
    ({ s with regs := r } : State).Inv :=
  h.withRegs hm hsv hres (hpos ▸ h.cursor) (hbit ▸ h.bitCount)

theorem State.Inv.setErr {s : State} (h : s.Inv) (e : Byte) : (s.setErr e).Inv :=
  h.withOtherRegs rfl rfl rfl (svOf_withErr _ e) (reserved_withErr _ e h.statusReserved)

/-- A host write reaches none of the registers the invariant speaks of (10_state.md R22, R24). -/
theorem State.Inv.hostWrite {s : State} (h : s.Inv) (v : Word) (r : Reg) :
    ({ s with regs := s.regs.hostWrite v r } : State).Inv := by
  cases r <;> exact h.withOtherRegs rfl rfl rfl rfl h.statusReserved

/-- The invariant holds of every state whose registers have their reset values and whose storages are within legal
capacities (10_state.md R50). -/
theorem State.inv_of_resetRegs {s : State} (hp : s.params.wellFormed = true) (hr : s.regs = Regs.reset s.params)
    (hcoef : Memory.Within s.coef s.params.nmax) (hseq : Memory.Within s.seq s.params.mmax)
    (hfb : Memory.Within s.fb s.params.fbcap) : s.Inv where
  params := hp
  statusReserved := by simp [hr, Regs.reset]
  sequence := by
    have hm : s.regs.m = 0#32 := by rw [hr]; rfl
    have hsv : svOf s.regs.status = false := by simp [hr, Regs.reset, svOf]
    unfold State.SequenceValid
    rw [hsv]
    exact hm
  cursor := by rw [hr]; exact Nat.le_refl _
  bitCount := by rw [hr]; exact Nat.zero_le _
  coef := hcoef
  seq := hseq
  fb := hfb

/-! ## SEQ.GEN -/

/-- After a successful SEQ.GEN the entries below M are the embedding sequence (41_sequencer.md R131). -/
theorem sequenceEntries_after_seqGen (s : State) (r : Regs)
    (hm : r.m = BitVec.ofNat 32 (sequenceLength s.regs.n.toNat)) :
    ({ s with
      seq := Memory.putAll s.seq 0 ((embeddingSequence s.regs.n.toNat s.regs.seed).map (BitVec.ofNat 32))
      regs := r } : State).sequenceEntries = embeddingSequence s.regs.n.toNat s.regs.seed := by
  have hlen := length_embeddingSequence s.regs.n.toNat s.regs.seed
  apply List.ext_getElem
  · rw [State.length_sequenceEntries, hm, sequenceLength_toNat, hlen]
  · intro k _ hk
    have hword : (embeddingSequence s.regs.n.toNat s.regs.seed)[k] < 2 ^ 32 :=
      Nat.lt_trans ((mem_embeddingSequence _ _ _).1 (List.getElem_mem hk)).1 s.regs.n.isLt
    simp only [State.sequenceEntries, List.getElem_map, List.getElem_range, seqAt_after_seqGen, dif_pos hk,
      BitVec.toNat_ofNat, Nat.mod_eq_of_lt hword]

/-- The embedding sequence lists the AC positions (41_sequencer.md R137). -/
theorem embeddingSequence_listsAcPositions (n : Nat) (seed : Word) :
    ListsAcPositions (embeddingSequence n seed) n :=
  ⟨nodup_embeddingSequence n seed, mem_embeddingSequence n seed⟩

/-- A successful SEQ.GEN keeps the invariant: it leaves a valid sequence and the cursor at its start. -/
theorem State.Inv.seqGen {s : State} (h : s.Inv) (hn : s.regs.n.toNat ≤ s.params.nmax) :
    ({ s with
      seq := Memory.putAll s.seq 0 ((embeddingSequence s.regs.n.toNat s.regs.seed).map (BitVec.ofNat 32))
      regs := { s.regs with
        m := BitVec.ofNat 32 (sequenceLength s.regs.n.toNat), pos := 0#32,
        status := withErr (withSv s.regs.status true) 0#8 } } : State).Inv where
  params := h.params
  statusReserved := reserved_withErr _ _ (reserved_withSv _ _ h.statusReserved)
  sequence := by
    unfold State.SequenceValid
    rw [if_pos (by simp), sequenceEntries_after_seqGen s _ rfl]
    exact ⟨_, hn, sequenceLength_toNat _, embeddingSequence_listsAcPositions _ _⟩
  cursor := Nat.zero_le _
  bitCount := h.bitCount
  coef := h.coef
  seq := by
    refine Memory.Within.putAll _ h.seq ?_
    rw [Nat.zero_add, List.length_map, length_embeddingSequence, mmax_eq]
    exact sequenceLength_mono hn
  fb := h.fb

/-! ## The transfers -/

/-- A transfer leaves the cursor where its last visit moved it (42_bitpacker.md R155). -/
theorem State.transferRegs_pos (s : State) {d : Nat} (k : Nat) (hd : d ≤ s.entriesLeft) :
    (s.transferRegs d k).pos.toNat = s.regs.pos.toNat + d := s.pos_toNat d hd

/-- A walk that starts in the sequence does not leave it (10_state.md R27). -/
theorem State.pos_add_visits_le (s : State) {d : Nat} (hpos : s.regs.pos.toNat ≤ s.regs.m.toNat)
    (hd : d ≤ s.entriesLeft) : s.regs.pos.toNat + d ≤ s.regs.m.toNat := by
  unfold State.entriesLeft at hd
  omega

/-- The bits a transfer owes lie in FB (42_bitpacker.md R157). -/
theorem State.bitsOwed_le (s : State) (hr : s.regs.boff.toNat + s.regs.bcnt.toNat ≤ s.params.fbcap) :
    s.bitsOwed ≤ 8 * s.params.fbcap := by
  unfold State.bitsOwed
  omega

/-- The registers a transfer leaves keep the invariant when the bits moved fit FB. -/
theorem State.Inv.transferRegs {s : State} (h : s.Inv) {d k : Nat} (hd : d ≤ s.entriesLeft)
    (hk : k ≤ 8 * s.params.fbcap) : ({ s with regs := s.transferRegs d k } : State).Inv :=
  h.withRegs rfl (svOf_withErr _ _) (reserved_withErr _ _ h.statusReserved)
    (by rw [s.transferRegs_pos k hd]; exact s.pos_add_visits_le h.cursor hd)
    (by
      show (BitVec.ofNat 32 k).toNat ≤ _
      rw [BitVec.toNat_ofNat]
      exact Nat.le_trans (Nat.mod_le _ _) hk)

/-- COEF after some visits of BP.WRITE is within its capacity, since the entries visited name locations of COEF. -/
theorem State.Inv.writeIter_within {s : State} (h : s.Inv) {d : Nat} (hd : d ≤ s.entriesLeft) :
    Memory.Within (s.writeIter d).coef s.params.nmax :=
  s.writeIter_within d _ h.coef fun e he =>
    h.sequence.seqAt_lt (by have := s.pos_add_visits_le h.cursor hd; omega)

/-- FB after some visits of BP.READ is within its capacity, since the bits moved are at most those owed. -/
theorem State.Inv.readIter_within {s : State} (h : s.Inv) {d : Nat}
    (hr : s.regs.boff.toNat + s.regs.bcnt.toNat ≤ s.params.fbcap) (hk : s.carriersWithin d ≤ s.bitsOwed) :
    Memory.Within (s.readIter d).fb s.params.fbcap := by
  refine s.readIter_within d _ h.fb ?_
  unfold State.bitsOwed at hk
  omega

/-! ## Commands, host operations, steps -/

/-- The header lies in FB (00_scope.md R9). -/
theorem Params.header_le_fbcap {p : Params} (h : p.wellFormed = true) : 8 ≤ p.fbcap := by
  simp only [Params.wellFormed, Bool.and_eq_true, decide_eq_true_eq] at h
  omega

/-- Every command keeps the invariant. -/
theorem exec_inv {i : Instr} {s t : State} (h : s.Inv) (he : exec i s = .next t) : t.Inv := by
  have hc := exec_cases i s t he
  cases i with
  | sysNop => cases hc; exact h.setErr _
  | sysReset => cases hc; exact State.inv_of_resetRegs h.params rfl h.coef h.seq h.fb
  | seqGen =>
    obtain ⟨-, rfl⟩ | ⟨hn, rfl⟩ := hc
    · exact h.setErr _
    · exact h.seqGen hn
  | bpRewind =>
    cases hc
    exact (h.withRegs (r := { s.regs with pos := 0#32 }) rfl rfl h.statusReserved (Nat.zero_le _) h.bitCount).setErr _
  | bpWrite =>
    obtain (rfl | rfl) | ⟨-, hr, d, hd, hk, rfl⟩ := hc
    · exact h.setErr _
    · exact h.setErr _
    · exact (h.transferRegs hd (hk.trans (s.bitsOwed_le hr))).withCoef (h.writeIter_within hd)
  | bpRead =>
    obtain (rfl | rfl) | ⟨-, hr, d, hd, hk, rfl⟩ := hc
    · exact h.setErr _
    · exact h.setErr _
    · exact (h.transferRegs hd (hk.trans (s.bitsOwed_le hr))).withFb (h.readIter_within hr hk)
  | frmBuild =>
    have hcap := Params.header_le_fbcap h.params
    obtain (rfl | rfl) | ⟨-, -, rfl⟩ := hc
    · exact h.setErr _
    · exact h.setErr _
    · exact (h.withFb (within_putNumber _ 4 4 _ (within_putNumber _ 0 4 _ h.fb (by omega)) hcap)).withOtherRegs
        rfl rfl rfl (svOf_withErr _ _) (reserved_withErr _ _ h.statusReserved)
  | frmParse =>
    obtain rfl | rfl := hc
    · exact h.setErr _
    · exact h.withOtherRegs rfl rfl rfl (svOf_withErr _ _) (reserved_withErr _ _ h.statusReserved)
  | frmCheck =>
    obtain rfl | rfl | rfl := hc <;>
      exact h.withOtherRegs rfl rfl rfl (by simp) (reserved_withErr _ _ (reserved_withV _ _ h.statusReserved))
  | obfXor =>
    obtain rfl | ⟨hl, rfl⟩ := hc
    · exact h.setErr _
    · exact (h.withFb (s.xorPayload_within _ _ h.fb hl)).withOtherRegs
        rfl rfl rfl (svOf_withErr _ _) (reserved_withErr _ _ h.statusReserved)

/-- Every host operation served keeps the invariant. -/
theorem serve_inv {op : HostOp} {s t : State} (h : s.Inv) (hs : serve op s = .next t) : t.Inv := by
  obtain ⟨r, rfl⟩ | ⟨i, hi⟩ | rfl | ⟨v, r, rfl⟩ | rfl | ⟨i, c, hi, rfl⟩ | ⟨a, b, ha, rfl⟩ := serve_cases op s t hs
  · exact h.withQueue _ _
  · exact exec_inv h hi
  · exact h.setErr _
  · exact h.hostWrite v r
  · exact h
  · exact h.withCoef (h.coef.put hi c)
  · exact h.withFb (h.fb.put ha b)

/-- A hardware reset keeps the invariant, since it keeps the capacities. -/
theorem State.Inv.hardwareReset {s : State} (h : s.Inv) : s.hardwareReset.Inv :=
  State.inv_of_resetRegs h.params rfl (Memory.Within.nil _) (Memory.Within.nil _) (Memory.Within.nil _)

/-- Settles O52: a step takes an input off the queue, and a hardware reset, each host operation and each command keeps the
invariant. -/
theorem invariantKeptByEveryStep : Obligations.InvariantKeptByEveryStep := by
  intro s t h hstep
  obtain ⟨-, rfl⟩ | ⟨rest, -, rfl⟩ | ⟨op, rest, -, hs⟩ := step_cases s t hstep
  · exact h
  · exact (h.withQueue rest s.replies).hardwareReset
  · exact serve_inv (h.withQueue rest s.replies) hs

/-! ## Reset -/

/-- The capacities after reset are legal (00_scope.md R9; log 3). -/
theorem wellFormed_configParams : Config.params.wellFormed = true := by
  have hn := Config.nmaxPred.isLt
  have hf := Config.fbcapSpare.isLt
  have hnmax : Config.params.nmax = Config.nmaxPred.val + 1 := rfl
  have hfbcap : Config.params.fbcap = Config.fbcapSpare.val + 9 := rfl
  simp only [Params.wellFormed, Bool.and_eq_true, decide_eq_true_eq]
  omega

/-- Settles O53: the reset values meet the invariant, and the storages have no location written. -/
theorem invariantHoldsAtReset : Obligations.InvariantHoldsAtReset :=
  State.inv_of_resetRegs wellFormed_configParams rfl (Memory.Within.nil _) (Memory.Within.nil _) (Memory.Within.nil _)

/-- Settles O16: the reset values depend on the capacities alone, so SYS.RESET on equal capacities writes the same. -/
theorem resetValues : Obligations.ResetValues := by
  refine ⟨rfl, rfl, rfl, rfl, rfl, fun s hp => ?_⟩
  have hregs : Regs.reset s.params = State.reset.regs := congrArg Regs.reset hp
  rw [exec_sysReset, hregs]

/-! ## Writers of STATUS and of the other registers -/

/-- The STATUS word a command leaves: SYS.RESET clears it, a successful SEQ.GEN sets SV, FRM.CHECK writes V, and nothing else
writes a field but ERR. -/
theorem exec_status_cases {i : Instr} {s t : State} (h : exec i s = .next t) :
    (i = .sysReset ∧ t.regs.status = 0#32) ∨
    (i = .seqGen ∧ (t.regs.status = withErr s.regs.status 10#8 ∨
      t.regs.status = withErr (withSv s.regs.status true) 0#8)) ∨
    (i = .frmCheck ∧ (t.regs.status = withErr (withV s.regs.status true) 0#8 ∨
      ∃ e, e ≠ 0#8 ∧ t.regs.status = withErr (withV s.regs.status false) e)) ∨
    (i ≠ .sysReset ∧ i ≠ .seqGen ∧ i ≠ .frmCheck ∧ ∃ e, t.regs.status = withErr s.regs.status e) := by
  have hc := exec_cases i s t h
  cases i with
  | sysReset => cases hc; exact .inl ⟨rfl, rfl⟩
  | seqGen =>
    refine .inr (.inl ⟨rfl, ?_⟩)
    obtain ⟨-, rfl⟩ | ⟨-, rfl⟩ := hc
    · exact .inl rfl
    · exact .inr rfl
  | frmCheck =>
    refine .inr (.inr (.inl ⟨rfl, ?_⟩))
    obtain rfl | rfl | rfl := hc
    · exact .inl rfl
    · exact .inr ⟨5#8, by decide, rfl⟩
    · exact .inr ⟨10#8, by decide, rfl⟩
  | sysNop | bpRewind =>
    cases hc; exact .inr (.inr (.inr ⟨nofun, nofun, nofun, _, rfl⟩))
  | bpWrite | bpRead =>
    refine .inr (.inr (.inr ⟨nofun, nofun, nofun, ?_⟩))
    obtain (rfl | rfl) | ⟨-, -, d, -, -, rfl⟩ := hc <;> exact ⟨_, rfl⟩
  | frmBuild =>
    refine .inr (.inr (.inr ⟨nofun, nofun, nofun, ?_⟩))
    obtain (rfl | rfl) | ⟨-, -, rfl⟩ := hc <;> exact ⟨_, rfl⟩
  | frmParse =>
    refine .inr (.inr (.inr ⟨nofun, nofun, nofun, ?_⟩))
    obtain rfl | rfl := hc <;> exact ⟨_, rfl⟩
  | obfXor =>
    refine .inr (.inr (.inr ⟨nofun, nofun, nofun, ?_⟩))
    obtain rfl | ⟨-, rfl⟩ := hc <;> exact ⟨_, rfl⟩

/-- Settles O55, from the STATUS word each command leaves and the independence of its fields. -/
theorem statusFlagWriters : Obligations.StatusFlagWriters := by
  intro i s t h
  obtain ⟨rfl, hst⟩ | ⟨rfl, hst | hst⟩ | ⟨rfl, hst | ⟨e, he, hst⟩⟩ | ⟨hr, hg, hc, e, hst⟩ := exec_status_cases h
  · simp [hst, svOf, vOf]
  · simpa [hst] using reserved_withErr s.regs.status 10#8
  · simpa [hst] using fun hres => reserved_withErr _ _ (reserved_withSv _ _ hres)
  · simpa [hst] using fun hres => reserved_withErr _ _ (reserved_withV _ _ hres)
  · simpa [hst, he] using fun hres => reserved_withErr _ _ (reserved_withV _ _ hres)
  · simpa [hst, hr, hg, hc] using reserved_withErr s.regs.status e

/-- Settles O56: each way a command can end writes only the registers listed for it. -/
theorem registerWriters : Obligations.RegisterWriters := by
  intro i s t h
  have hc := exec_cases i s t h
  cases i with
  | sysNop | bpRewind => cases hc; rfl
  | sysReset => trivial
  | seqGen => obtain ⟨-, rfl⟩ | ⟨-, rfl⟩ := hc <;> rfl
  | bpWrite | bpRead => obtain (rfl | rfl) | ⟨-, -, d, -, -, rfl⟩ := hc <;> rfl
  | frmBuild => obtain (rfl | rfl) | ⟨-, -, rfl⟩ := hc <;> rfl
  | frmParse => obtain rfl | rfl := hc <;> rfl
  | frmCheck => obtain rfl | rfl | rfl := hc <;> rfl
  | obfXor => obtain rfl | ⟨-, rfl⟩ := hc <;> rfl

/-- A transfer from within the sequence moves the cursor forward, not past M, and keeps M. -/
theorem exec_transfer_cursor {i : Instr} {s t : State} (h : exec i s = .next t) (hi : i = .bpWrite ∨ i = .bpRead)
    (hpos : s.regs.pos.toNat ≤ s.regs.m.toNat) :
    s.regs.pos.toNat ≤ t.regs.pos.toNat ∧ t.regs.pos.toNat ≤ t.regs.m.toNat ∧ t.regs.m = s.regs.m := by
  have walked : ∀ {d : Nat} (k : Nat), d ≤ s.entriesLeft →
      s.regs.pos.toNat ≤ (s.transferRegs d k).pos.toNat ∧
      (s.transferRegs d k).pos.toNat ≤ s.regs.m.toNat := fun {d} k hd => by
    rw [s.transferRegs_pos k hd]
    exact ⟨Nat.le_add_right _ d, s.pos_add_visits_le hpos hd⟩
  have hc := exec_cases i s t h
  obtain rfl | rfl := hi <;> obtain (rfl | rfl) | ⟨-, -, d, hd, -, rfl⟩ := hc
  case inl.inr | inr.inr => exact ⟨(walked _ hd).1, (walked _ hd).2, rfl⟩
  all_goals exact ⟨Nat.le_refl _, hpos, rfl⟩

/-- Settles O59: transfers by the walk's visits, the other commands by the registers they write. -/
theorem cursorOnlyMovesForward : Obligations.CursorOnlyMovesForward := by
  intro i s t h hpos
  refine ⟨fun hi => exec_transfer_cursor h hi hpos, ?_, ?_⟩
  · have hc := exec_cases i s t h
    rintro (rfl | rfl | ⟨rfl, herr⟩)
    · cases hc; rfl
    · cases hc; rfl
    · obtain ⟨-, rfl⟩ | ⟨-, rfl⟩ := hc
      · simp at herr
      · rfl
  · intro hw hr hrw hrs hg
    have hregs := registerWriters i s t h
    cases i with
    | bpWrite | bpRead | bpRewind | sysReset | seqGen => contradiction
    | sysNop | frmBuild | frmParse | frmCheck | obfXor => rw [hregs]

end Sys2Proof.Machine
end

section
/-! Family 20_memory.md: what the commands that write a storage leave in it, and which commands write none. -/

namespace Sys2Proof.Machine

/-! ## Storages written -/

/-- COEF after new contents and new registers. -/
theorem State.coefAt_withCoef (s : State) (coef : Memory 16) (r : Regs) (i : Nat) :
    ({ s with coef := coef, regs := r } : State).coefAt i = Memory.get (Config.freeCoef s.era) coef i := rfl

/-- FB after new contents and new registers. -/
theorem State.fbAt_withFb (s : State) (fb : Memory 8) (r : Regs) (a : Nat) :
    ({ s with fb := fb, regs := r } : State).fbAt a = Memory.get (Config.freeFb s.era) fb a := rfl

/-- The storage a command writes: at most one, and the one listed for it (20_memory.md R66); beside it a command writes
registers only. -/
theorem exec_storage_cases {i : Instr} {s t : State} (h : exec i s = .next t) :
    (i = .bpWrite ∧ ∃ coef r, t = { s with coef := coef, regs := r }) ∨
    (i = .seqGen ∧ ∃ seq r, t = { s with seq := seq, regs := r }) ∨
    ((i = .bpRead ∨ i = .frmBuild ∨ i = .obfXor) ∧ ∃ fb r, t = { s with fb := fb, regs := r }) ∨
    ∃ r, t = { s with regs := r } := by
  have hc := exec_cases i s t h
  cases i with
  | sysNop | sysReset | bpRewind => exact .inr (.inr (.inr ⟨_, hc⟩))
  | bpWrite =>
    refine .inl ⟨rfl, ?_⟩
    obtain (rfl | rfl) | ⟨-, -, d, -, -, rfl⟩ := hc <;> exact ⟨_, _, rfl⟩
  | seqGen =>
    refine .inr (.inl ⟨rfl, ?_⟩)
    obtain ⟨-, rfl⟩ | ⟨-, rfl⟩ := hc <;> exact ⟨_, _, rfl⟩
  | bpRead =>
    refine .inr (.inr (.inl ⟨.inl rfl, ?_⟩))
    obtain (rfl | rfl) | ⟨-, -, d, -, -, rfl⟩ := hc <;> exact ⟨_, _, rfl⟩
  | frmBuild =>
    refine .inr (.inr (.inl ⟨.inr (.inl rfl), ?_⟩))
    obtain (rfl | rfl) | ⟨-, -, rfl⟩ := hc <;> exact ⟨_, _, rfl⟩
  | obfXor =>
    refine .inr (.inr (.inl ⟨.inr (.inr rfl), ?_⟩))
    obtain rfl | ⟨-, rfl⟩ := hc <;> exact ⟨_, _, rfl⟩
  | frmParse =>
    refine .inr (.inr (.inr ?_))
    obtain rfl | rfl := hc <;> exact ⟨_, rfl⟩
  | frmCheck =>
    refine .inr (.inr (.inr ?_))
    obtain rfl | rfl | rfl := hc <;> exact ⟨_, rfl⟩

/-- Settles O57, from the one storage each command writes. -/
theorem storageWriters : Obligations.StorageWriters := by
  intro i s t h
  obtain ⟨rfl, coef, r, rfl⟩ | ⟨rfl, seq, r, rfl⟩ | ⟨hi, fb, r, rfl⟩ | ⟨r, rfl⟩ := exec_storage_cases h
  · exact ⟨fun hn => absurd rfl hn, fun _ _ => rfl, fun _ _ _ _ => rfl, rfl, rfl, rfl⟩
  · exact ⟨fun _ _ => rfl, fun hn => absurd rfl hn, fun _ _ _ _ => rfl, rfl, rfl, rfl⟩
  · refine ⟨fun _ _ => rfl, fun _ _ => rfl, fun hr hb ho => ?_, rfl, rfl, rfl⟩
    obtain rfl | rfl | rfl := hi <;> contradiction
  · exact ⟨fun _ _ => rfl, fun _ _ => rfl, fun _ _ _ _ => rfl, rfl, rfl, rfl⟩

/-! ## BP.WRITE -/

/-- Replacing bit 0 of a coefficient word leaves bits 15:1 (20_memory.md R69). -/
theorem withLsb_and_mask (c : Coef) (b : Bool) : withLsb c b &&& 0xFFFE#16 = c &&& 0xFFFE#16 := by
  ext i hi
  interval_cases i <;> simp [withLsb]

/-- The word with its bit 0 replaced, with the bit as a number (42_bitpacker.md R152). -/
theorem withLsb_eq_or (c : Coef) (b : Bool) : withLsb c b = (c &&& 0xFFFE#16) ||| if b then 1#16 else 0#16 := by
  cases b <;> rfl

/-- Settles O32: a transfer that does not start writes only ERR; of one that does, each coefficient is unchanged or was a
carrier some visit named, with its bit 0 replaced. -/
theorem bpWriteChangesOnlyBitZeroOfVisitedCarriers : Obligations.BpWriteChangesOnlyBitZeroOfVisitedCarriers := by
  intro s
  obtain ⟨t, ht⟩ : ∃ t, exec .bpWrite s = .next t := ⟨_, rfl⟩
  refine ⟨t, ht, ?_⟩
  obtain (rfl | rfl) | ⟨-, -, d, hd, -, rfl⟩ := exec_cases _ _ _ ht
  · exact ⟨rfl, withErr_and_mask _ _, fun i => ⟨rfl, fun hne => absurd rfl hne⟩⟩
  · exact ⟨rfl, withErr_and_mask _ _, fun i => ⟨rfl, fun hne => absurd rfl hne⟩⟩
  · refine ⟨rfl, withErr_and_mask _ _, fun i => ?_⟩
    rw [State.coefAt_withCoef, s.transferRegs_pos _ hd]
    rcases s.writeIter_coef d i with hsame | ⟨⟨e, he, hi⟩, hcarrier, b, hb⟩
    · exact ⟨by rw [hsame], fun hne => absurd hsame hne⟩
    · exact ⟨by rw [hb, withLsb_and_mask], fun _ => ⟨hcarrier, _, Nat.le_add_right _ e, Nat.add_lt_add_left he _, hi⟩⟩

/-- Settles O33: the entries of a valid sequence differ, so each visit finds the coefficient that was there at the start. -/
theorem bpWritePlacesStreamBitsOnCarriers : Obligations.BpWritePlacesStreamBitsOnCarriers := by
  intro s hsv hvalid hrange
  obtain ⟨n, hn, -, -, -, hexec⟩ := exec_bpWrite s (s.transferError_none hsv hrange)
  obtain ⟨-, hother, hvisited⟩ := s.writeIter_distinct n (s.entriesDistinct_of_nodup (hvalid.nodup hsv) hn)
  refine ⟨_, hexec, fun d hd => ?_, fun i hi => ?_⟩
  · rw [s.transferRegs_pos _ hn] at hd
    refine (hvisited d (Nat.lt_of_add_lt_add_left hd)).trans ?_
    rw [withLsb_eq_or]
    rfl
  · rw [s.transferRegs_pos _ hn] at hi
    exact hother i fun e he => hi _ (Nat.le_add_right _ e) (Nat.add_lt_add_left he _)

/-! ## FRM.PARSE -/

/-- A field of four bytes, most significant byte first (20_memory.md R60). -/
theorem State.fbNumber_four (s : State) (a : Nat) :
    s.fbNumber a 4 = (s.fbAt a).toNat * 2 ^ 24 + (s.fbAt (a + 1)).toNat * 2 ^ 16 +
      (s.fbAt (a + 2)).toNat * 2 ^ 8 + (s.fbAt (a + 3)).toNat := by
  simp only [State.fbNumber, Nat.add_zero]
  omega

/-- Settles O45, from the two header fields as numbers. -/
theorem frmParseReadsOrRejectsHeader : Obligations.FrmParseReadsOrRejectsHeader := by
  intro s length checksum hlength hchecksum
  have hlen : s.fbNumber 0 4 = length := (s.fbNumber_four 0).trans hlength.symm
  have hcrc : s.fbNumber 4 4 = checksum := (s.fbNumber_four 4).trans hchecksum.symm
  rw [exec_frmParse, hlen, hcrc, State.maxEff]
  refine ⟨fun hreject => ?_, fun hpos hmax => ?_⟩
  · rw [if_pos hreject]
    rfl
  · rw [if_neg (by omega), withErr_zero]

/-! ## OBF.XOR -/

/-- A key byte as a field of KEY (20_memory.md R62). -/
theorem keyByte_eq_extractLsb' (key : Word) (j : Nat) : keyByte key j = key.extractLsb' (24 - 8 * j) 8 := by
  rw [keyByte, BitVec.setWidth_ushiftRight_eq_extractLsb]

/-- Settles O50, from the bytes the walk over the payload leaves. -/
theorem obfXorCombinesPayloadWithKey : Obligations.ObfXorCombinesPayloadWithKey := by
  intro s hfits
  rw [exec_obfXor, if_pos hfits, withErr_zero]
  refine ⟨_, rfl, rfl, fun i hi => ?_, fun a ha => ?_⟩
  · rw [State.fbAt_withFb, s.get_xorPayload, if_pos (by omega), Nat.add_sub_cancel_left, keystream, keyByte_eq_extractLsb']
    rfl
  · rw [State.fbAt_withFb, s.get_xorPayload, if_neg (by omega)]

end Sys2Proof.Machine
end

section
/-! Family 30_encoding.md: decoding and encoding agree, and a word is a command only as one of the ten words. -/

namespace Sys2Proof

/-- For each of the ten commands, looking its word up in the opcode map finds its own row first (30_encoding.md R93). -/
@[simp] theorem decode_encode (i : Instr) : decode (encode i) = .ok i := by
  cases i <;> rfl

/-- A word decodes to a command exactly when it is the command's word. -/
theorem decode_eq_ok_iff (w : Word) (i : Instr) : decode w = .ok i ↔ w = encode i := by
  constructor
  · exact fun h => (encode_of_decode w i h).symm
  · rintro rfl
    exact decode_encode i

/-- Settles O2: comparing under a mask of all ones is comparing the words. -/
theorem wordSelectsCommandExactlyByTable : Obligations.WordSelectsCommandExactlyByTable := by
  refine ⟨fun w i => ?_, rfl, rfl, rfl, rfl, rfl, rfl, rfl, rfl, rfl, rfl⟩
  rw [and_all_ones, decode_eq_ok_iff]

/-- Settles O1. -/
theorem decodeOfEncodeIsInstruction : Obligations.DecodeOfEncodeIsInstruction :=
  decode_encode

/-- Settles O4: the fields of each word put together are the word of its command. -/
theorem commandWordsDecodeAsTabled : Obligations.CommandWordsDecodeAsTabled :=
  ⟨decode_encode .sysReset, decode_encode .seqGen, decode_encode .bpWrite, decode_encode .frmCheck,
    decode_encode .obfXor⟩

end Sys2Proof
end

section
/-! Family 40_host_port.md: what each host operation does, when a step is refused, and that every command completes. -/

namespace Sys2Proof.Machine

/-! ## Commands -/

/-- Settles O58: the arm of each command is a next state, whatever branch it takes inside. -/
theorem everyCommandCompletes : Obligations.EveryCommandCompletes := by
  intro i s
  cases i <;> exact ⟨_, rfl⟩

/-- A word that decodes runs its command (40_host_port.md R118). -/
theorem issue_of_decode {w : Word} {i : Instr} (s : State) (h : decode w = .ok i) : issue w s = exec i s := by
  rw [issue, h]

/-- A command word gives a next state, legal or not (40_host_port.md R118). -/
theorem issue_completes (w : Word) (s : State) : ∃ t, issue w s = .next t := by
  cases h : decode w with
  | ok i => rw [issue_of_decode s h]; exact everyCommandCompletes i s
  | error e => exact ⟨s.raise .illegalCommand, by rw [issue, h]⟩

/-- Settles O5: the write to CMD is served by issuing its word. -/
theorem stepRunsDecodedCommand : Obligations.StepRunsDecodedCommand := by
  intro s rest w i hin hdec
  rw [step_host s _ rest hin, serve_command, issue_of_decode _ hdec]

/-- The decoder of the 32-bit format is `decode` on the word. -/
theorem decode_of_decodeTableWord {w : Nat} {i : Instr} (h : decodeTableWord 32 w = some i) :
    decode (BitVec.ofNat 32 w) = .ok i := by
  rw [decodeTableWord, tableWord_32] at h
  cases hdec : decode (BitVec.ofNat 32 w) with
  | ok j => simpa [hdec, Except.toOption] using h
  | error e => simp [hdec, Except.toOption] at h

/-- A fetch word of the 32-bit format stands for a write of the word to CMD (log 13). -/
theorem State.withFetchWord_32 (s : State) (w : Nat) : s.withFetchWord 32 w = s.issueNext (BitVec.ofNat 32 w) := by
  rw [State.withFetchWord, tableWord_32]

/-- Settles O6: taking the write that the fetch word put into the queue leaves the queue as it was. -/
theorem fetchWordStepRunsInstruction : Obligations.FetchWordStepRunsInstruction := by
  intro s w i h
  rw [State.withFetchWord_32]
  exact stepRunsDecodedCommand _ s.inputs _ i rfl (decode_of_decodeTableWord h)

/-! ## Reads -/

/-- A read that names a location adds its reply and changes nothing else (20_memory.md R68; 40_host_port.md R111). -/
theorem serve_read {op : HostOp} {s : State} {r : Reply} (hw : op.wellFormed s.params = true)
    (hr : s.replyTo op = some r) : serve op s = .next (s.answer r) := by
  unfold serve
  rw [if_pos hw]
  cases op <;> cases hr <;> rfl

/-- The step of a read that names a location. -/
theorem step_read {s : State} {rest : List Input} {op : HostOp} {r : Reply} (hin : s.inputs = .host op :: rest)
    (hw : op.wellFormed s.params = true) (hr : s.replyTo op = some r) :
    step s = .next { s with inputs := rest, replies := r :: s.replies } := by
  have hrest : ({ s with inputs := rest } : State).replyTo op = some r := by rw [← hr]; cases op <;> rfl
  rw [step_host s op rest hin]
  exact serve_read hw hrest

/-- A number of 15 or more names no register (10_state.md R23). -/
theorem ofNumber_eq_none {n : Nat} (h : 15 ≤ n) : Reg.ofNumber n = none := by
  obtain ⟨k, rfl⟩ := Nat.exists_eq_add_of_le' h
  rfl

/-- Settles O9: the fifteen register numbers one by one, and the numbers that name no register. -/
theorem regReadAnswersRegisterOrZero : Obligations.RegReadAnswersRegisterOrZero := by
  intro s rest n hin
  refine step_read hin rfl (congrArg (fun v => some (Reply.reg v)) ?_)
  by_cases hn : n < 15
  · interval_cases n <;> rfl
  · have hn : 15 ≤ n := Nat.le_of_not_lt hn
    rw [State.regRead, ofNumber_eq_none hn, List.getElem?_eq_none hn]
    rfl

/-- Settles O13: a read of SEQ below MMAX names a location. -/
theorem sequencePortReadsOnly : Obligations.SequencePortReadsOnly :=
  fun _ _ _ hk hin => step_read hin (decide_eq_true hk) rfl

/-! ## Writes -/

/-- The step of a register write. -/
theorem step_regWrite {s : State} {rest : List Input} {n : Nat} {v : Word}
    (hin : s.inputs = .host (.regWrite n v) :: rest) : step s = regWrite n v { s with inputs := rest } :=
  (step_host s _ rest hin).trans (if_pos rfl)

/-- A register other than CMD stores what its kind lets a host write store (40_host_port.md R112, R113). -/
theorem step_regWrite_register {s : State} {rest : List Input} {n : Nat} {v : Word} {r : Reg}
    (hin : s.inputs = .host (.regWrite n v) :: rest) (hn : Reg.ofNumber n = some r) (hr : r ≠ .cmd) :
    step s = .next { s with inputs := rest, regs := s.regs.hostWrite v r } := by
  rw [step_regWrite hin]
  cases r with
  | cmd => contradiction
  | _ => simp only [regWrite, hn]

/-- A write of a number that names no register is ignored (40_host_port.md R112). -/
theorem step_regWrite_noRegister {s : State} {rest : List Input} {n : Nat} {v : Word}
    (hin : s.inputs = .host (.regWrite n v) :: rest) (hn : Reg.ofNumber n = none) :
    step s = .next { s with inputs := rest } := by
  rw [step_regWrite hin]
  simp only [regWrite, hn]

/-- Settles O10: the read-write registers, the read-only registers, the numbers that name none, and CMD. -/
theorem regWriteStoresOnlyInReadWriteRegisters : Obligations.RegWriteStoresOnlyInReadWriteRegisters := by
  intro s rest v
  refine ⟨fun n r hmem hin => ?_, fun n hn hin => ?_, fun i hv hin => ?_⟩
  · simp only [List.mem_cons, Prod.mk.injEq, List.not_mem_nil, or_false] at hmem
    obtain ⟨rfl, rfl⟩ | ⟨rfl, rfl⟩ | ⟨rfl, rfl⟩ | ⟨rfl, rfl⟩ | ⟨rfl, rfl⟩ | ⟨rfl, rfl⟩ | ⟨rfl, rfl⟩ | ⟨rfl, rfl⟩ := hmem
    all_goals exact step_regWrite_register hin rfl nofun
  · obtain hro | hnone := hn
    · simp only [List.mem_cons, List.not_mem_nil, or_false] at hro
      obtain rfl | rfl | rfl | rfl | rfl | rfl := hro
      all_goals exact step_regWrite_register hin rfl nofun
    · exact step_regWrite_noRegister hin (ofNumber_eq_none hnone)
  · exact stepRunsDecodedCommand s rest v i hin (hv ▸ decode_encode i)

/-- A write of a word of COEF that exists (40_host_port.md R114). -/
theorem serve_coefWrite {i : Nat} {s : State} (c : Coef) (hi : i < s.params.nmax) :
    serve (.coefWrite i c) s = .next { s with coef := Memory.put s.coef i c } := if_pos (decide_eq_true hi)

/-- A write of a byte of FB that exists (40_host_port.md R115). -/
theorem serve_fbWrite {a : Nat} {s : State} (b : Byte) (ha : a < s.params.fbcap) :
    serve (.fbWrite a b) s = .next { s with fb := Memory.put s.fb a b } := if_pos (decide_eq_true ha)

/-- Settles O11: reading after one write of COEF. -/
theorem coefPortReadsAndWritesOneWord : Obligations.CoefPortReadsAndWritesOneWord := by
  intro s rest i c hi
  refine ⟨fun hin => step_read hin (decide_eq_true hi) rfl, fun hin => ?_⟩
  exact ⟨_, (step_host s _ rest hin).trans (serve_coefWrite c hi), rfl,
    Memory.get_put_self _ _ _ _, fun _ hj => Memory.get_put_of_ne _ _ _ hj⟩

/-- Settles O12: reading after one write of FB. -/
theorem framePortReadsAndWritesOneByte : Obligations.FramePortReadsAndWritesOneByte := by
  intro s rest a b ha
  refine ⟨fun hin => step_read hin (decide_eq_true ha) rfl, fun hin => ?_⟩
  exact ⟨_, (step_host s _ rest hin).trans (serve_fbWrite b ha), rfl,
    Memory.get_put_self _ _ _ _, fun _ hx => Memory.get_put_of_ne _ _ _ hx⟩

/-! ## Which steps complete and which are refused -/

/-- Settles O7, from the empty queue's case of `takeInput`. -/
theorem noInputNoChange : Obligations.NoInputNoChange := by
  intro s hin
  rw [step, takeInput, hin]

/-- A register write gives a next state, whatever its number and value are. -/
theorem regWrite_completes (n : Nat) (v : Word) (s : State) : ∃ t, regWrite n v s = .next t := by
  unfold regWrite
  split
  · exact issue_completes v s
  · exact ⟨_, rfl⟩
  · exact ⟨_, rfl⟩

/-- A host operation that names a location gives a next state. -/
theorem serve_completes {op : HostOp} {s : State} (hw : op.wellFormed s.params = true) : ∃ t, serve op s = .next t := by
  unfold serve
  rw [if_pos hw]
  cases op with
  | regWrite n v => exact regWrite_completes n v s
  | _ => exact ⟨_, rfl⟩

/-- A host operation that names no location is refused (40_host_port.md R116; log 9). -/
theorem serve_refused {op : HostOp} {s : State} (hw : ¬ op.wellFormed s.params = true) :
    serve op s = .refused .noSuchLocation := if_neg hw

/-- A step gives a next state or is refused because its host operation names no location. -/
theorem step_completes_or_refused (s : State) :
    (∃ t, step s = .next t) ∨
    ∃ op rest, s.inputs = .host op :: rest ∧ ¬ op.wellFormed s.params = true ∧ step s = .refused .noSuchLocation := by
  match hin : s.inputs with
  | [] => exact .inl ⟨s, noInputNoChange s hin⟩
  | .hardwareReset :: rest => exact .inl ⟨_, step_hardwareReset s rest hin⟩
  | .host op :: rest =>
    rw [step_host s op rest hin]
    by_cases hw : op.wellFormed s.params = true
    · exact .inl (serve_completes hw)
    · exact .inr ⟨op, rest, rfl, hw, serve_refused hw⟩

/-- A step is refused exactly when the next input is a host operation that names no location. -/
theorem step_refused_iff (s : State) :
    (∃ r, step s = .refused r) ↔ ∃ op rest, s.inputs = .host op :: rest ∧ ¬ op.wellFormed s.params = true := by
  constructor
  · rintro ⟨r, hr⟩
    obtain ⟨t, ht⟩ | ⟨op, rest, hin, hw, -⟩ := step_completes_or_refused s
    · rw [ht] at hr; cases hr
    · exact ⟨op, rest, hin, hw⟩
  · rintro ⟨op, rest, hin, hw⟩
    exact ⟨_, (step_host s op rest hin).trans (serve_refused hw)⟩

/-- Settles O8: of the seven host operations the five on a storage can name a location that is not there. -/
theorem stepRefusesExactlyOutsideAccesses : Obligations.StepRefusesExactlyOutsideAccesses := by
  intro s
  refine ⟨(step_refused_iff s).trans ⟨?_, ?_⟩, ?_⟩
  · rintro ⟨op, rest, hin, hw⟩
    cases op with
    | regRead | regWrite => exact absurd rfl hw
    | coefRead i => exact .inl ⟨rest, i, hin, Nat.le_of_not_lt (hw ∘ decide_eq_true)⟩
    | coefWrite i c => exact .inr (.inl ⟨rest, i, c, hin, Nat.le_of_not_lt (hw ∘ decide_eq_true)⟩)
    | seqRead k => exact .inr (.inr (.inl ⟨rest, k, hin, Nat.le_of_not_lt (hw ∘ decide_eq_true)⟩))
    | fbRead a => exact .inr (.inr (.inr (.inl ⟨rest, a, hin, Nat.le_of_not_lt (hw ∘ decide_eq_true)⟩)))
    | fbWrite a b => exact .inr (.inr (.inr (.inr ⟨rest, a, b, hin, Nat.le_of_not_lt (hw ∘ decide_eq_true)⟩)))
  · rintro (⟨rest, i, hin, hi⟩ | ⟨rest, i, c, hin, hi⟩ | ⟨rest, k, hin, hi⟩ | ⟨rest, a, hin, hi⟩ | ⟨rest, a, b, hin, hi⟩)
    all_goals exact ⟨_, rest, hin, Nat.not_lt_of_le ‹_ ≤ _› ∘ of_decide_eq_true⟩
  · obtain ⟨t, ht⟩ | ⟨op, rest, -, -, hr⟩ := step_completes_or_refused s
    · exact .inr ⟨t, ht⟩
    · exact .inl ⟨_, hr⟩

end Sys2Proof.Machine
end

section
/-! Family 41_sequencer.md: the generator step, the sequences SEQ.GEN stores, and what else SEQ.GEN changes. -/

namespace Sys2Proof.Machine

/-! ## The generator -/

/-- A word that a left shift leaves as it is is 0: each bit equals the one `k` places below it, or 0. -/
theorem eq_zero_of_shiftLeft_eq {w k : Nat} (hk : 0 < k) {z : BitVec w} (h : z <<< k = z) : z = 0#w := by
  have hbit : ∀ i, z.getLsbD i = false := by
    intro i
    induction i using Nat.strong_induction_on with
    | _ i ih =>
      rw [← h, BitVec.getLsbD_shiftLeft]
      by_cases hik : i < k
      · simp [hik]
      · simp [ih (i - k) (by omega)]
  exact BitVec.eq_of_getLsbD_eq fun i _ => (hbit i).trans BitVec.getLsbD_zero.symm

/-- A word that a right shift leaves as it is is 0: a number above 0 gets smaller. -/
theorem eq_zero_of_ushiftRight_eq {w k : Nat} (hk : 0 < k) {z : BitVec w} (h : z >>> k = z) : z = 0#w := by
  by_contra hz
  have hpos : 0 < z.toNat := Nat.pos_of_ne_zero fun h0 => hz (BitVec.eq_of_toNat_eq h0)
  have hlt : z.toNat / 2 ^ k < z.toNat := Nat.div_lt_self hpos (Nat.one_lt_two_pow hk.ne')
  rw [← Nat.shiftRight_eq_div_pow, ← BitVec.toNat_ushiftRight, h] at hlt
  exact Nat.lt_irrefl _ hlt

/-- A xor with a map of words that respects xor and fixes only 0 is one-to-one. -/
theorem xor_map_injective {w : Nat} {f : BitVec w → BitVec w} (hxor : ∀ x y, f (x ^^^ y) = f x ^^^ f y)
    (hfix : ∀ z, f z = z → z = 0#w) : Function.Injective fun x => x ^^^ f x := by
  intro x y (hxy : x ^^^ f x = y ^^^ f y)
  have hzero : f (x ^^^ y) ^^^ (x ^^^ y) = 0#w := calc
    f (x ^^^ y) ^^^ (x ^^^ y) = (x ^^^ f x) ^^^ (y ^^^ f y) := by rw [hxor]; ac_rfl
    _ = 0#w := by rw [hxy, BitVec.xor_self]
  exact BitVec.xor_eq_zero_iff.1 (hfix _ (BitVec.xor_eq_zero_iff.1 hzero))

theorem xor_shiftLeft_injective {w k : Nat} (hk : 0 < k) : Function.Injective fun x : BitVec w => x ^^^ x <<< k :=
  xor_map_injective (fun x y => BitVec.shiftLeft_xor_distrib x y k) fun _ => eq_zero_of_shiftLeft_eq hk

theorem xor_ushiftRight_injective {w k : Nat} (hk : 0 < k) : Function.Injective fun x : BitVec w => x ^^^ x >>> k :=
  xor_map_injective (fun x y => BitVec.ushiftRight_xor_distrib x y k) fun _ => eq_zero_of_ushiftRight_eq hk

/-- A generator step is three xors with a shift, each of them one-to-one (41_sequencer.md R133). -/
theorem xorshift32_injective : Function.Injective xorshift32 :=
  (xor_shiftLeft_injective (k := 5) (by decide)).comp
    ((xor_ushiftRight_injective (k := 17) (by decide)).comp (xor_shiftLeft_injective (k := 13) (by decide)))

/-- Settles O24: a step takes 0 to 0, so being one-to-one it takes nothing else there. -/
theorem generatorStepIsInjectiveAndNeverZero : Obligations.GeneratorStepIsInjectiveAndNeverZero :=
  have hzero : xorshift32 0#32 = 0#32 := rfl
  ⟨fun _ _ h => xorshift32_injective h, fun _ hx h => hx (xorshift32_injective (h.trans hzero.symm))⟩

/-! ## The state SEQ.GEN leaves -/

/-- The state after a SEQ.GEN on a length that fits COEF (41_sequencer.md R131). -/
def State.generated (s : State) : State := { s with
  seq := Memory.putAll s.seq 0 ((embeddingSequence s.regs.n.toNat s.regs.seed).map (BitVec.ofNat 32))
  regs := { s.regs with
    m := BitVec.ofNat 32 (sequenceLength s.regs.n.toNat), pos := 0#32,
    status := withErr (withSv s.regs.status true) 0#8 } }

theorem exec_seqGen_generated {s : State} (h : s.regs.n.toNat ≤ s.params.nmax) :
    exec .seqGen s = .next s.generated := exec_seqGen s h

@[simp] theorem State.generated_m_toNat (s : State) : s.generated.regs.m.toNat = sequenceLength s.regs.n.toNat :=
  sequenceLength_toNat _

@[simp] theorem State.generated_pos (s : State) : s.generated.regs.pos = 0#32 := rfl

@[simp] theorem State.svOf_generated (s : State) : svOf s.generated.regs.status = true := by
  simp [State.generated]

@[simp] theorem State.generated_sequenceEntries (s : State) :
    s.generated.sequenceEntries = embeddingSequence s.regs.n.toNat s.regs.seed := sequenceEntries_after_seqGen s _ rfl

/-- SEQ from M on keeps its words (log 19). -/
theorem State.generated_seqAt_of_le (s : State) {k : Nat} (hk : s.generated.regs.m.toNat ≤ k) :
    s.generated.seqAt k = s.seqAt k := by
  rw [s.generated_m_toNat] at hk
  exact (seqAt_after_seqGen s k _).trans (dif_neg (by rw [length_embeddingSequence]; omega))

/-- States with the same entries have the same M, which counts them. -/
theorem State.m_eq_of_sequenceEntries_eq {s t : State} (h : s.sequenceEntries = t.sequenceEntries) :
    s.regs.m = t.regs.m :=
  BitVec.eq_of_toNat_eq (by rw [← s.length_sequenceEntries, h, t.length_sequenceEntries])

/-- States with the same entries have the same words below M. -/
theorem State.seqAt_eq_of_sequenceEntries_eq {s t : State} (h : s.sequenceEntries = t.sequenceEntries) {k : Nat}
    (hk : k < s.regs.m.toNat) : s.seqAt k = t.seqAt k := by
  have hentry := congrArg (·[k]?) h
  have hk' : k < t.regs.m.toNat := m_eq_of_sequenceEntries_eq h ▸ hk
  simp only [State.sequenceEntries, List.getElem?_map, List.getElem?_range hk, List.getElem?_range hk', Option.map_some,
    Option.some.injEq] at hentry
  exact BitVec.eq_of_toNat_eq hentry

/-! ## What SEQ.GEN does -/

/-- Settles O20, part by part from the state SEQ.GEN leaves. -/
theorem seqGenStoresEmbeddingSequence : Obligations.SeqGenStoresEmbeddingSequence := by
  intro s hn
  refine ⟨_, exec_seqGen_generated hn, ?_, s.generated_sequenceEntries, fun k => s.generated_seqAt_of_le⟩
  rw [← withErr_withSv_true]
  rfl

/-- Settles O21: the entries are the embedding sequence, a rearrangement of the AC positions. -/
theorem seqGenListsEachAcPositionOnce : Obligations.SeqGenListsEachAcPositionOnce := by
  intro s hn
  refine ⟨_, exec_seqGen_generated hn, ?_⟩
  rw [s.generated_sequenceEntries]
  exact embeddingSequence_listsAcPositions _ _

/-- Settles O22: both states have the same entries, and these give M and the words below it. -/
theorem seqGenDependsOnLengthAndSeedOnly : Obligations.SeqGenDependsOnLengthAndSeedOnly := by
  intro s s' hlen hseed hn hn'
  have hentries : s.generated.sequenceEntries = s'.generated.sequenceEntries := by
    rw [s.generated_sequenceEntries, s'.generated_sequenceEntries, hlen, hseed]
  exact ⟨_, _, exec_seqGen_generated hn, exec_seqGen_generated hn', State.m_eq_of_sequenceEntries_eq hentries,
    fun _ => State.seqAt_eq_of_sequenceEntries_eq hentries⟩

/-- Settles O23: M is the spec's formula, which is the number of candidates. -/
theorem sequenceLengthCountsAcPositions : Obligations.SequenceLengthCountsAcPositions := by
  intro s t hn ht
  cases (exec_seqGen_generated hn).symm.trans ht
  rw [s.generated_m_toNat]
  exact ⟨sequenceLength_eq _, (length_candidates _).symm⟩

/-- The substitute seed: 0 starts the generator where `0x9E3779B9` does (41_sequencer.md R134). -/
theorem embeddingSequence_zero_seed (n : Nat) : embeddingSequence n 0#32 = embeddingSequence n 0x9E3779B9#32 :=
  congrArg (shuffleFrom _ · _) (by decide : seedState 0#32 = seedState 0x9E3779B9#32)

/-- Settles O25: the two seeds give the same entries, and these give M. -/
theorem zeroSeedActsAsSubstituteSeed : Obligations.ZeroSeedActsAsSubstituteSeed := by
  intro s hn
  have hentries : State.sequenceEntries (State.generated { s with regs := { s.regs with seed := 0#32 } }) =
      State.sequenceEntries (State.generated { s with regs := { s.regs with seed := 0x9E3779B9#32 } }) := by
    rw [State.generated_sequenceEntries, State.generated_sequenceEntries]
    exact embeddingSequence_zero_seed _
  exact ⟨_, _, exec_seqGen_generated hn, exec_seqGen_generated hn, hentries, State.m_eq_of_sequenceEntries_eq hentries⟩

/-! ## Particular sequences -/

/-- The entries after SEQ.GEN, with N and SEED given as numbers. -/
theorem exec_seqGen_entries {s : State} {n seed : Word} {l : List Nat} (hn : s.regs.n = n) (hseed : s.regs.seed = seed)
    (hfits : n.toNat ≤ s.params.nmax) (hl : embeddingSequence n.toNat seed = l) :
    ∃ t, exec .seqGen s = .next t ∧ t.sequenceEntries = l := by
  subst hn hseed
  exact ⟨_, exec_seqGen_generated hfits, s.generated_sequenceEntries.trans hl⟩

/-- Settles O26: the pure function is evaluated at each of the three lengths. -/
theorem defaultSeedWorkedTrace : Obligations.DefaultSeedWorkedTrace := by
  intro s hmax hseed
  refine ⟨?_, ?_, ?_⟩ <;>
    exact fun hn => exec_seqGen_entries hn hseed (Nat.le_trans (by decide) hmax) (by decide)

/-- Below two coefficients there is no AC position (41_sequencer.md R140). -/
theorem State.generated_m_of_le_one {s : State} (h : s.regs.n.toNat ≤ 1) : s.generated.regs.m = 0#32 :=
  BitVec.eq_of_toNat_eq (by rw [s.generated_m_toNat, sequenceLength_eq, BitVec.toNat_ofNat]; omega)

/-- Settles O27: with M = 0 every word of SEQ lies from M on; at N = 2 there is one candidate and nothing to shuffle. -/
theorem shortBufferSequences : Obligations.ShortBufferSequences := by
  intro s hfits
  refine ⟨fun hn => ?_, fun hn => ?_⟩
  · have hm := State.generated_m_of_le_one hn
    exact ⟨_, exec_seqGen_generated hfits, hm, fun k => s.generated_seqAt_of_le (by rw [hm]; exact Nat.zero_le k),
      s.svOf_generated, s.generated_pos⟩
  · refine ⟨_, exec_seqGen_generated hfits, ?_, s.svOf_generated, s.generated_pos⟩
    rw [s.generated_sequenceEntries, hn]
    rfl

end Sys2Proof.Machine
end

section
/-! Family 42_bitpacker.md: how many visits a transfer makes, what it moves, and what a read finds of a write. -/

namespace Sys2Proof.Machine

/-! ## BP.REWIND and one coefficient -/

/-- Settles O28. -/
theorem bpRewindZeroesCursorOnly : Obligations.BpRewindZeroesCursorOnly :=
  ⟨decode_encode .bpRewind, fun s => by
    rw [exec_bpRewind, ← withErr_zero]
    rfl⟩

/-- As a number, the word written is the old one with its bit 0 replaced (42_bitpacker.md R152). -/
theorem withLsb_toNat (c : Coef) (b : Bool) : (withLsb c b).toNat = Nat.bit b (c.toNat / 2) := by
  apply Nat.eq_of_testBit_eq
  intro i
  have hbit := getLsbD_withLsb c b i
  rw [BitVec.getLsbD, BitVec.getLsbD] at hbit
  cases i with
  | zero => rw [hbit, Nat.testBit_bit_zero, if_pos rfl]
  | succ i => rw [hbit, Nat.testBit_bit_succ, if_neg i.succ_ne_zero, Nat.testBit_succ]

/-- As a signed number, the word written is the old one's floored half, doubled, and the bit (42_bitpacker.md R153). -/
theorem withLsb_toInt (c : Coef) (b : Bool) : (withLsb c b).toInt = 2 * (c.toInt / 2) + b.toInt := by
  have hc := c.isLt
  rw [BitVec.toInt_eq_toNat_cond, BitVec.toInt_eq_toNat_cond, withLsb_toNat, Nat.bit_val]
  cases b <;> simp only [Bool.toNat, Bool.toInt, cond] <;> split <;> split <;> omega

/-- The bit read is the parity (42_bitpacker.md R152). -/
theorem lsb_eq_true_iff (c : Coef) : lsb c = true ↔ c.toInt % 2 = 1 := by
  rw [lsb, BitVec.getLsbD, Nat.testBit_zero, decide_eq_true_iff, BitVec.toInt_eq_toNat_cond]
  split <;> omega

/-- Settles O35. -/
theorem bitReplacementArithmetic : Obligations.BitReplacementArithmetic := by
  intro c b
  have hint := withLsb_toInt c b
  refine ⟨hint.trans ?_, ?_, lsb_eq_true_iff c, lsb_withLsb c b⟩
  · cases b <;> rfl
  · cases b <;> simp only [Bool.toInt, cond] at hint <;> omega

/-- Settles O36: the value moves down only from an odd value with bit 0 and up only from an even value with bit 1, so the
magnitude falls below the threshold only from the threshold itself. -/
theorem thresholdCrossingCases : Obligations.ThresholdCrossingCases := by
  intro t c b hcarrier
  have hint := withLsb_toInt c b
  cases b with
  | false =>
    simp only [Bool.toInt, cond] at hint
    simp only [and_true, Bool.false_eq_true, and_false, or_false]
    omega
  | true =>
    simp only [Bool.toInt, cond] at hint
    simp only [and_true, Bool.true_eq_false, and_false, false_or]
    omega

/-! ## Where a walk stops -/

/-- A walk over `left` entries that owes `owed` bits stops after `d` visits, when `count e` bits are moved in the first `e`
visits: at the end of its entries or as soon as no bit is owed (42_bitpacker.md R155). -/
structure StopsAfter (left owed : Nat) (count : Nat → Nat) (d : Nat) : Prop where
  le_left : d ≤ left
  done : d < left → owed ≤ count d
  owing : ∀ e, e < d → count e < owed
  le_owed : count d ≤ owed

namespace StopsAfter

variable {left owed : Nat} {count : Nat → Nat} {d : Nat}

/-- A walk that stops before the end of its entries has moved exactly the bits it owes. -/
theorem count_eq (h : StopsAfter left owed count d) (hd : d < left) : count d = owed :=
  Nat.le_antisymm h.le_owed (h.done hd)

/-- A walk stops in one place. -/
theorem unique {e : Nat} (hd : StopsAfter left owed count d) (he : StopsAfter left owed count e) : d = e := by
  have no_later : ∀ {a b}, StopsAfter left owed count a → StopsAfter left owed count b → ¬ a < b :=
    fun ha hb hab => absurd (hb.owing _ hab) (Nat.not_lt_of_le (ha.done (Nat.lt_of_lt_of_le hab hb.le_left)))
  exact Nat.le_antisymm (Nat.le_of_not_lt (no_later he hd)) (Nat.le_of_not_lt (no_later hd he))

/-- Where a walk stops depends on the bits its own visits move. -/
theorem congr {count' : Nat → Nat} (h : StopsAfter left owed count d) (hc : ∀ e, e ≤ d → count' e = count e) :
    StopsAfter left owed count' d where
  le_left := h.le_left
  done hd := hc d (Nat.le_refl d) ▸ h.done hd
  owing e he := hc e (Nat.le_of_lt he) ▸ h.owing e he
  le_owed := hc d (Nat.le_refl d) ▸ h.le_owed

/-- A walk that owes nothing makes no visit (42_bitpacker.md R155). -/
theorem eq_zero (h : StopsAfter left 0 count d) : d = 0 :=
  Nat.eq_zero_of_not_pos fun hd => absurd (h.owing 0 hd) (Nat.not_lt_zero _)

/-- A walk that owes `A` bits and then one that owes `B` bits over what the first has left stop where one that owes `A + B`
does (42_bitpacker.md R167). -/
theorem append {owed₂ : Nat} {count₂ : Nat → Nat} {d₂ : Nat} (h : StopsAfter left owed count d)
    (h₂ : StopsAfter (left - d) owed₂ count₂ d₂) (hcount : count d = owed → ∀ e, count (d + e) = owed + count₂ e) :
    StopsAfter left (owed + owed₂) count (d + d₂) := by
  obtain ⟨hleft₂, hdone₂, howing₂, howed₂⟩ := h₂
  have hleft := h.le_left
  have hresume : d < left → ∀ e, count (d + e) = owed + count₂ e := fun hd => hcount (h.count_eq hd)
  refine ⟨by omega, fun hlt => ?_, fun e he => ?_, ?_⟩
  · have := hresume (by omega) d₂
    have := hdone₂ (by omega)
    omega
  · by_cases hed : e < d
    · exact Nat.lt_of_lt_of_le (h.owing e hed) (Nat.le_add_right _ _)
    · have hsum := hresume (by omega) (e - d)
      rw [Nat.add_sub_cancel' (Nat.le_of_not_lt hed)] at hsum
      have := howing₂ (e - d) (by omega)
      omega
  · by_cases hd : d < left
    · have := hresume hd d₂
      omega
    · obtain rfl : d₂ = 0 := by omega
      exact Nat.le_trans h.le_owed (Nat.le_add_right _ _)

end StopsAfter

/-! ## The transfers as visits -/

/-- The state BP.WRITE leaves when its walk stops after `d` visits. -/
def State.afterWrite (s : State) (d : Nat) : State :=
  { s with coef := (s.writeIter d).coef, regs := s.transferRegs d (s.writeIter d).k }

/-- The state BP.READ leaves when its walk stops after `d` visits. -/
def State.afterRead (s : State) (d : Nat) : State :=
  { s with fb := (s.readIter d).fb, regs := s.transferRegs d (s.carriersWithin d) }

theorem State.afterWrite_pos {s : State} {d : Nat} (hd : d ≤ s.entriesLeft) :
    (s.afterWrite d).regs.pos.toNat = s.regs.pos.toNat + d := s.transferRegs_pos _ hd

theorem State.afterRead_pos {s : State} {d : Nat} (hd : d ≤ s.entriesLeft) :
    (s.afterRead d).regs.pos.toNat = s.regs.pos.toNat + d := s.transferRegs_pos _ hd

theorem State.afterWrite_coefAt (s : State) (d i : Nat) :
    (s.afterWrite d).coefAt i = Memory.get (Config.freeCoef s.era) (s.writeIter d).coef i := rfl

theorem State.afterRead_fbAt (s : State) (d a : Nat) :
    (s.afterRead d).fbAt a = Memory.get (Config.freeFb s.era) (s.readIter d).fb a := rfl

theorem exec_bpWrite_stops {s : State} (hsv : svOf s.regs.status = true)
    (hrange : s.regs.boff.toNat + s.regs.bcnt.toNat ≤ s.params.fbcap) :
    ∃ d, StopsAfter s.entriesLeft s.bitsOwed (fun e => (s.writeIter e).k) d ∧
      exec .bpWrite s = .next (s.afterWrite d) := by
  obtain ⟨d, hleft, hdone, howing, howed, hexec⟩ := exec_bpWrite s (s.transferError_none hsv hrange)
  exact ⟨d, ⟨hleft, hdone, howing, howed⟩, hexec⟩

theorem exec_bpRead_stops {s : State} (hsv : svOf s.regs.status = true)
    (hrange : s.regs.boff.toNat + s.regs.bcnt.toNat ≤ s.params.fbcap) :
    ∃ d, StopsAfter s.entriesLeft s.bitsOwed s.carriersWithin d ∧ exec .bpRead s = .next (s.afterRead d) := by
  obtain ⟨d, hleft, hdone, howing, howed, hexec⟩ := exec_bpRead s (s.transferError_none hsv hrange)
  exact ⟨d, ⟨hleft, hdone, howing, howed⟩, hexec⟩

/-- Over a valid sequence BP.WRITE moves one bit per carrier there was at the start. -/
theorem exec_bpWrite_carriers {s : State} (hsv : svOf s.regs.status = true) (hvalid : s.SequenceValid)
    (hrange : s.regs.boff.toNat + s.regs.bcnt.toNat ≤ s.params.fbcap) :
    ∃ d, StopsAfter s.entriesLeft s.bitsOwed s.carriersWithin d ∧ (s.writeIter d).k = s.carriersWithin d ∧
      exec .bpWrite s = .next (s.afterWrite d) := by
  obtain ⟨d, hstop, hexec⟩ := exec_bpWrite_stops hsv hrange
  have hk : ∀ e, e ≤ d → s.carriersWithin e = (s.writeIter e).k := fun e he =>
    (s.writeIter_distinct e
      (s.entriesDistinct_of_nodup (hvalid.nodup hsv) (Nat.le_trans he hstop.le_left))).1.symm
  exact ⟨d, hstop.congr hk, (hk d (Nat.le_refl d)).symm, hexec⟩

/-! ## What a transfer reports -/

/-- Settles O29: a walk that owes nothing makes no visit, so POS keeps its value. -/
theorem emptyTransferMovesNothing : Obligations.EmptyTransferMovesNothing := by
  intro s hsv hbcnt hboff
  have howed : s.bitsOwed = 0 := by rw [State.bitsOwed, hbcnt]; rfl
  have hrange : s.regs.boff.toNat + s.regs.bcnt.toNat ≤ s.params.fbcap := by rw [hbcnt]; exact hboff
  have hregs : s.transferRegs 0 0 =
      { s.regs with bitcnt := 0#32, status := s.regs.status &&& 0xFFFFFF00#32 } := by
    simp [State.transferRegs, howed, withErr_zero]
  obtain ⟨d, hwrite, hexecWrite⟩ := exec_bpWrite_stops hsv hrange
  obtain ⟨e, hread, hexecRead⟩ := exec_bpRead_stops hsv hrange
  rw [howed] at hwrite hread
  obtain rfl := hwrite.eq_zero
  obtain rfl := hread.eq_zero
  rw [hexecWrite, hexecRead, ← hregs]
  exact ⟨rfl, rfl⟩

/-- The bits a transfer owes fit BITCNT when the capacities are legal (42_bitpacker.md R157). -/
theorem State.bitsOwed_lt {s : State} (hp : s.params.wellFormed = true)
    (hrange : s.regs.boff.toNat + s.regs.bcnt.toNat ≤ s.params.fbcap) : s.bitsOwed < 2 ^ 32 := by
  simp only [Params.wellFormed, Bool.and_eq_true, decide_eq_true_eq] at hp
  unfold State.bitsOwed
  omega

/-- BITCNT is the number of bits moved. -/
theorem State.transferRegs_bitcnt {s : State} {k : Nat} (d : Nat) (hp : s.params.wellFormed = true)
    (hrange : s.regs.boff.toNat + s.regs.bcnt.toNat ≤ s.params.fbcap) (hk : k ≤ s.bitsOwed) :
    (s.transferRegs d k).bitcnt.toNat = k := by
  have hlt := State.bitsOwed_lt hp hrange
  show (BitVec.ofNat 32 k).toNat = k
  rw [BitVec.toNat_ofNat, Nat.mod_eq_of_lt (by omega)]

/-- What the registers say after a transfer that started at `s`: the bits moved, and how and where it stopped, as the carriers
ahead decide it (42_bitpacker.md R155 to R157, R161). -/
def State.Reports (s : State) (r : Regs) : Prop :=
  r.bitcnt.toNat = min (8 * s.regs.bcnt.toNat) s.carriersAhead ∧
  (8 * s.regs.bcnt.toNat ≤ s.carriersAhead →
    r.status = s.regs.status &&& 0xFFFFFF00#32 ∧ s.regs.pos.toNat ≤ r.pos.toNat ∧ r.pos.toNat ≤ s.regs.m.toNat ∧
    s.carriersWithin (r.pos.toNat - s.regs.pos.toNat) = 8 * s.regs.bcnt.toNat ∧
    ∀ d, d < r.pos.toNat - s.regs.pos.toNat → s.carriersWithin d < 8 * s.regs.bcnt.toNat) ∧
  (s.carriersAhead < 8 * s.regs.bcnt.toNat →
    r.status = (s.regs.status &&& 0xFFFFFF00#32) ||| 3#32 ∧ r.pos = s.regs.m)

/-- A walk moves as many of the bits owed as there are carriers ahead. -/
theorem State.carriersWithin_eq_min {s : State} {d : Nat} (h : StopsAfter s.entriesLeft s.bitsOwed s.carriersWithin d) :
    s.carriersWithin d = min s.bitsOwed s.carriersAhead := by
  have hahead : s.carriersAhead = s.carriersWithin s.entriesLeft := rfl
  have hmono := s.carriersWithin_mono h.le_left
  have howed := h.le_owed
  obtain hd | rfl := Nat.lt_or_eq_of_le h.le_left
  · have := h.count_eq hd
    omega
  · omega

/-- A transfer that moves one bit per carrier reports what the carriers ahead decide. -/
theorem State.reports_transferRegs {s : State} {d : Nat} (hp : s.params.wellFormed = true)
    (hpos : s.regs.pos.toNat ≤ s.regs.m.toNat) (hrange : s.regs.boff.toNat + s.regs.bcnt.toNat ≤ s.params.fbcap)
    (h : StopsAfter s.entriesLeft s.bitsOwed s.carriersWithin d) :
    s.Reports (s.transferRegs d (s.carriersWithin d)) := by
  have hmin := State.carriersWithin_eq_min h
  have hcursor := s.transferRegs_pos (s.carriersWithin d) h.le_left
  unfold State.Reports
  rw [State.transferRegs_bitcnt d hp hrange h.le_owed, hcursor, Nat.add_sub_cancel_left,
    show 8 * s.regs.bcnt.toNat = s.bitsOwed from rfl]
  refine ⟨hmin, fun henough => ?_, fun hshort => ?_⟩
  · have hall : s.carriersWithin d = s.bitsOwed := hmin.trans (Nat.min_eq_left henough)
    refine ⟨?_, Nat.le_add_right _ d, s.pos_add_visits_le hpos h.le_left, hall, h.owing⟩
    rw [State.transferRegs, if_neg (Nat.not_lt_of_le hall.ge), withErr_zero]
  · have howing : s.carriersWithin d < s.bitsOwed := by omega
    have hend : d = s.entriesLeft :=
      Nat.le_antisymm h.le_left (Nat.le_of_not_lt fun hd => Nat.not_lt_of_le (h.done hd) howing)
    refine ⟨by rw [State.transferRegs, if_pos howing]; rfl, BitVec.eq_of_toNat_eq ?_⟩
    rw [hcursor, hend, State.entriesLeft, Nat.add_sub_cancel' hpos]

/-- Settles O30: over a valid sequence BP.WRITE moves one bit per carrier. -/
theorem bpWriteMovesAsManyBitsAsCarriersAllow : Obligations.BpWriteMovesAsManyBitsAsCarriersAllow := by
  intro s hp hsv hvalid hpos hrange
  obtain ⟨d, hstop, hk, hexec⟩ := exec_bpWrite_carriers hsv hvalid hrange
  refine ⟨_, hexec, ?_⟩
  rw [State.afterWrite, hk]
  exact State.reports_transferRegs hp hpos hrange hstop

/-- Settles O31: BP.READ moves one bit per carrier, since it leaves COEF. -/
theorem bpReadMovesAsManyBitsAsCarriersAllow : Obligations.BpReadMovesAsManyBitsAsCarriersAllow := by
  intro s hp hsv hpos hrange
  obtain ⟨d, hstop, hexec⟩ := exec_bpRead_stops hsv hrange
  exact ⟨_, hexec, State.reports_transferRegs hp hpos hrange hstop⟩

/-! ## What a transfer stores -/

/-- A bit of a complete byte that BP.READ stored is bit 0 of its carrier (42_bitpacker.md R154, R160). -/
theorem State.afterRead_bit {s : State} {d e : Nat} (he : e < d)
    (hc : isCarrier s.regs.minmag (s.coefOfEntry (s.regs.pos.toNat + e)) = true)
    (hbyte : s.carriersWithin e < 8 * (s.carriersWithin d / 8)) :
    ((s.afterRead d).fbAt (s.regs.boff.toNat + s.carriersWithin e / 8)).getLsbD (7 - s.carriersWithin e % 8) =
      lsb (s.coefOfEntry (s.regs.pos.toNat + e)) := by
  obtain ⟨-, hbits, -⟩ := s.readIter_fb d
  refine (hbits _ hbyte).trans ?_
  rw [s.bitsRead_at d e he hc]
  rfl

/-- Settles O34: the bits read are stored in whole bytes and nowhere else. -/
theorem bpReadStoresCarrierBitsAsWholeBytes : Obligations.BpReadStoresCarrierBitsAsWholeBytes := by
  intro s hp hsv hrange
  obtain ⟨n, hstop, hexec⟩ := exec_bpRead_stops hsv hrange
  have hbitcnt : (s.afterRead n).regs.bitcnt.toNat = s.carriersWithin n :=
    State.transferRegs_bitcnt n hp hrange hstop.le_owed
  obtain ⟨-, -, hother⟩ := s.readIter_fb n
  refine ⟨_, hexec, rfl, withErr_and_mask _ _, ?_, ?_⟩ <;> rw [hbitcnt]
  · intro d hd hc hbyte
    rw [State.afterRead_pos hstop.le_left] at hd
    exact State.afterRead_bit (Nat.lt_of_add_lt_add_left hd) hc hbyte
  · exact hother

/-- Settles O40: a coefficient BP.WRITE changes is named by an entry below M, so it is an AC position below `n`. -/
theorem dcAndLaterPositionsUntouched : Obligations.DcAndLaterPositionsUntouched := by
  intro s n ⟨_, hmem⟩ hpos
  obtain ⟨t, hexec, -, -, hchanged⟩ := bpWriteChangesOnlyBitZeroOfVisitedCarriers s
  refine ⟨t, hexec, fun i hi => ?_⟩
  by_contra hne
  obtain ⟨-, k, -, hk, rfl⟩ := (hchanged i).2 hne
  obtain ⟨-, hend, hm⟩ := exec_transfer_cursor hexec (.inl rfl) hpos
  have hac := (hmem _).1 (s.seqAt_mem (Nat.lt_of_lt_of_le hk (hm ▸ hend)))
  omega

/-! ## Reading back what was written -/

/-- Whether the entry `e` places after the cursor names a carrier. -/
abbrev State.carrierAhead (s : State) (e : Nat) : Bool :=
  isCarrier s.regs.minmag (s.coefOfEntry (s.regs.pos.toNat + e))

/-- Where every carrier of `t` is one of `s`, `t` has no more of them. -/
theorem State.carriersWithin_le {s t : State} {d : Nat}
    (h : ∀ e, e < d → t.carrierAhead e = true → s.carrierAhead e = true) :
    t.carriersWithin d ≤ s.carriersWithin d := by
  induction d with
  | zero => exact Nat.le_refl 0
  | succ d ih =>
    have hle := ih fun e he => h e (Nat.lt_succ_of_lt he)
    rw [State.carriersWithin_succ, State.carriersWithin_succ]
    by_cases ht : t.carrierAhead d = true
    · rw [if_pos ht, if_pos (h d (Nat.lt_succ_self d) ht)]
      omega
    · rw [if_neg ht]
      omega

/-- Where every carrier of `t` is one of `s`, the two have equally many exactly when every carrier of `s` is one of `t`. -/
theorem State.carriersWithin_eq_iff {s t : State} {d : Nat}
    (h : ∀ e, e < d → t.carrierAhead e = true → s.carrierAhead e = true) :
    t.carriersWithin d = s.carriersWithin d ↔ ∀ e, e < d → s.carrierAhead e = true → t.carrierAhead e = true := by
  induction d with
  | zero => simp
  | succ d ih =>
    have hd : ∀ e, e < d → t.carrierAhead e = true → s.carrierAhead e = true := fun e he => h e (Nat.lt_succ_of_lt he)
    have hle := State.carriersWithin_le hd
    have hlast := h d (Nat.lt_succ_self d)
    rw [State.carriersWithin_succ, State.carriersWithin_succ, Nat.forall_lt_succ_right, ← ih hd]
    by_cases ht : t.carrierAhead d = true
    · have hs := hlast ht
      rw [if_pos ht, if_pos hs]
      exact ⟨fun heq => ⟨by omega, fun _ => ht⟩, fun ⟨heq, _⟩ => by omega⟩
    · rw [if_neg ht]
      by_cases hs : s.carrierAhead d = true
      · rw [if_pos hs]
        exact ⟨fun heq => by omega, fun ⟨_, himp⟩ => absurd (himp hs) ht⟩
      · rw [if_neg hs]
        exact ⟨fun heq => ⟨by omega, fun hs' => absurd hs' hs⟩, fun ⟨heq, _⟩ => by omega⟩

/-- The state after a BP.WRITE of `d` visits with the cursor put back and any frame buffer, from which the bits are read
back. -/
def State.readBack (s : State) (d : Nat) (fb : List Host.Cell) : State :=
  { s.afterWrite d with fb := fb, regs := { (s.afterWrite d).regs with pos := s.regs.pos } }

/-- What a visit of the read finds: the carrier with its stream bit, or the coefficient that was skipped. -/
theorem State.readBack_coefOfEntry {s : State} {d e : Nat} (fb : List Host.Cell) (h : s.EntriesDistinct d) (he : e < d) :
    (s.readBack d fb).coefOfEntry (s.regs.pos.toNat + e) =
      if s.carrierAhead e then
        withLsb (s.coefOfEntry (s.regs.pos.toNat + e)) (s.streamBit (s.carriersWithin e))
      else s.coefOfEntry (s.regs.pos.toNat + e) := by
  obtain ⟨-, -, hvisited⟩ := s.writeIter_distinct d h
  exact hvisited e he

/-- A coefficient that the write skipped is still no carrier. -/
theorem State.carrierAhead_of_readBack {s : State} {d e : Nat} {fb : List Host.Cell} (h : s.EntriesDistinct d)
    (he : e < d) (hc : (s.readBack d fb).carrierAhead e = true) : s.carrierAhead e = true := by
  by_contra hs
  have hcoef := State.readBack_coefOfEntry fb h he
  rw [if_neg hs] at hcoef
  have hsame : (s.readBack d fb).carrierAhead e = s.carrierAhead e := congrArg (isCarrier s.regs.minmag) hcoef
  exact hs (hsame ▸ hc)

/-- The bit a read finds on a carrier is the stream bit that was written there. -/
theorem State.lsb_readBack {s : State} {d e : Nat} {fb : List Host.Cell} (h : s.EntriesDistinct d) (he : e < d)
    (hc : (s.readBack d fb).carrierAhead e = true) :
    lsb ((s.readBack d fb).coefOfEntry (s.regs.pos.toNat + e)) = s.streamBit (s.carriersWithin e) := by
  rw [State.readBack_coefOfEntry fb h he, if_pos (State.carrierAhead_of_readBack h he hc), lsb_withLsb]

/-- When the read meets as many carriers before each visit as the write did, it stores the bytes written
(42_bitpacker.md R162). -/
theorem State.fbAt_readBack {s : State} {d : Nat} {fb : List Host.Cell} (h : s.EntriesDistinct d)
    (hcount : ∀ e, e ≤ d → (s.readBack d fb).carriersWithin e = s.carriersWithin e)
    (hall : s.carriersWithin d = s.bitsOwed) {j : Nat} (hj : j < s.regs.bcnt.toNat) :
    ((s.readBack d fb).afterRead d).fbAt (s.regs.boff.toNat + j) = s.fbAt (s.regs.boff.toNat + j) := by
  refine BitVec.eq_of_getLsbD_eq fun i hi => ?_
  have howed : s.bitsOwed = 8 * s.regs.bcnt.toNat := rfl
  have hd := hcount d (Nat.le_refl d)
  obtain ⟨e, he, hc, hq⟩ := (s.readBack d fb).exists_carrier d (8 * j + (7 - i)) (by omega)
  have hread := (State.afterRead_bit he hc (by omega)).trans (State.lsb_readBack h he hc)
  rw [← hcount e (Nat.le_of_lt he), State.streamBit, hq, show (8 * j + (7 - i)) / 8 = j by omega,
    show 7 - (8 * j + (7 - i)) % 8 = i by omega] at hread
  exact hread

/-- A transfer succeeds exactly when it has moved the bits it owes. -/
theorem State.transferRegs_succeeds_iff (s : State) (d k : Nat) :
    errOf (s.transferRegs d k).status = 0#8 ↔ s.bitsOwed ≤ k := by
  rw [State.transferRegs, errOf_withErr]
  split
  · exact iff_of_false (by decide) (by omega)
  · exact iff_of_true rfl (by omega)

/-- The entries a walk visits, numbered from the cursor. -/
theorem forall_visited_iff {pos d : Nat} {P : Nat → Prop} :
    (∀ k, pos ≤ k → k < pos + d → P k) ↔ ∀ e, e < d → P (pos + e) := by
  constructor
  · exact fun h e he => h _ (Nat.le_add_right _ e) (Nat.add_lt_add_left he _)
  · intro h k hk hkd
    obtain ⟨e, rfl⟩ := Nat.exists_eq_add_of_le hk
    exact h e (Nat.lt_of_add_lt_add_left hkd)

/-- The read succeeds at the write's cursor with the bytes written exactly when it loses no carrier: its carriers are some of
the write's, so it moves all its bits in the write's visits only when it has them all; then each bit is read where it was
written (42_bitpacker.md R162). -/
theorem State.readBack_mirrors_iff {s : State} {d d' : Nat} {fb : List Host.Cell} (hdist : s.EntriesDistinct d)
    (hstop : StopsAfter s.entriesLeft s.bitsOwed s.carriersWithin d) (hall : s.carriersWithin d = s.bitsOwed)
    (hstop' : StopsAfter s.entriesLeft s.bitsOwed (s.readBack d fb).carriersWithin d') :
    (errOf ((s.readBack d fb).afterRead d').regs.status = 0#8 ∧
      ((s.readBack d fb).afterRead d').regs.pos = (s.afterWrite d).regs.pos ∧
      ∀ j, j < s.regs.bcnt.toNat →
        ((s.readBack d fb).afterRead d').fbAt (s.regs.boff.toNat + j) = s.fbAt (s.regs.boff.toNat + j)) ↔
    ∀ e, e < d → s.carrierAhead e = true → (s.readBack d fb).carrierAhead e = true := by
  have hkept : ∀ {e}, e < d → (s.readBack d fb).carrierAhead e = true → s.carrierAhead e = true :=
    State.carrierAhead_of_readBack hdist
  have hsuccess_iff := (s.readBack d fb).transferRegs_succeeds_iff d' ((s.readBack d fb).carriersWithin d')
  constructor
  · rintro ⟨hsuccess, hend, -⟩
    have hcursor := congrArg BitVec.toNat hend
    rw [State.afterRead_pos (s := s.readBack d fb) hstop'.le_left, State.afterWrite_pos hstop.le_left] at hcursor
    obtain rfl : d' = d := Nat.add_left_cancel hcursor
    have hmoved : s.bitsOwed ≤ (s.readBack d' fb).carriersWithin d' := hsuccess_iff.1 hsuccess
    exact (State.carriersWithin_eq_iff fun e => hkept).1
      (Nat.le_antisymm (State.carriersWithin_le fun e => hkept) (hall ▸ hmoved))
  · intro hnone
    have hcount : ∀ e, e ≤ d → (s.readBack d fb).carriersWithin e = s.carriersWithin e := fun e he =>
      (State.carriersWithin_eq_iff fun f hf => hkept (Nat.lt_of_lt_of_le hf he)).2
        fun f hf => hnone f (Nat.lt_of_lt_of_le hf he)
    obtain rfl : d' = d := hstop'.unique (hstop.congr hcount)
    exact ⟨hsuccess_iff.2 ((hcount d' (Nat.le_refl d')).trans hall).ge, rfl,
      fun j => State.fbAt_readBack hdist hcount hall⟩

/-- Settles O37: a successful write has moved all its bits, and the read walks over the entries it visited. -/
theorem readMirrorsWriteExactlyWithoutCrossing : Obligations.ReadMirrorsWriteExactlyWithoutCrossing := by
  intro s t u fb _ hsv hvalid _ hrange hwrite hok hread
  obtain ⟨d, hstop, hk, hexec⟩ := exec_bpWrite_carriers hsv hvalid hrange
  cases hexec.symm.trans hwrite
  obtain ⟨d', hstop', hexec'⟩ := exec_bpRead_stops (s := s.readBack d fb) ((svOf_withErr _ _).trans hsv) hrange
  cases hexec'.symm.trans hread
  have hall : s.carriersWithin d = s.bitsOwed :=
    Nat.le_antisymm hstop.le_owed (hk ▸ (s.transferRegs_succeeds_iff _ _).1 hok)
  refine (State.readBack_mirrors_iff (s.entriesDistinct_of_nodup (hvalid.nodup hsv) hstop.le_left) hstop hall
    hstop').trans ?_
  rw [State.afterWrite_pos hstop.le_left]
  exact (forall_visited_iff (P := fun k => isCarrier s.regs.minmag (s.coefOfEntry k) = true →
    isCarrier s.regs.minmag ((s.afterWrite d).coefOfEntry k) = true)).symm

/-! ## A transfer in two parts -/

/-- A state with another byte count for the next transfer. -/
def State.withBcnt (s : State) (n : Word) : State := { s with regs := { s.regs with bcnt := n } }

/-- A state whose next transfer moves `b` bytes from where the last one's bytes end (42_bitpacker.md R167). -/
def State.resume (s : State) (b : Word) : State :=
  { s with regs := { s.regs with boff := s.regs.boff + s.regs.bcnt, bcnt := b } }

/-- The visits of a write do not depend on BCNT. -/
@[simp] theorem State.writeIter_withBcnt (s : State) (n : Word) (d : Nat) :
    (s.withBcnt n).writeIter d = s.writeIter d := by
  induction d with
  | zero => rfl
  | succ d ih => rw [State.writeIter, State.writeIter, ih]; rfl

/-- The visits of a read do not depend on BCNT. -/
@[simp] theorem State.readIter_withBcnt (s : State) (n : Word) (d : Nat) :
    (s.withBcnt n).readIter d = s.readIter d := by
  induction d with
  | zero => rfl
  | succ d ih => rw [State.readIter, State.readIter, ih]; rfl

/-- Between whole bytes the shift register is empty (42_bitpacker.md R160). -/
theorem State.readIter_acc (s : State) {d : Nat} (h : s.carriersWithin d % 8 = 0) : (s.readIter d).acc = 0#8 := by
  induction d with
  | zero => rfl
  | succ d ih =>
    rw [← s.readIter_k, State.readIter] at h
    rw [State.readIter]
    obtain ⟨-, hvisit⟩ | ⟨-, hm, hvisit⟩ | ⟨-, -, hvisit⟩ := s.readVisit_cases (s.readIter d) <;> rw [hvisit] at h ⊢
    · exact ih (s.readIter_k d ▸ h)
    · exact absurd h hm

section Resumed

variable {s : State} {b : Word} {d e : Nat}
  (hboff : (s.regs.boff + s.regs.bcnt).toNat = s.regs.boff.toNat + s.regs.bcnt.toNat)

theorem State.entriesLeft_resume_afterWrite (hd : d ≤ s.entriesLeft) :
    ((s.afterWrite d).resume b).entriesLeft = s.entriesLeft - d := by
  have hpos : ((s.afterWrite d).resume b).regs.pos.toNat = s.regs.pos.toNat + d := State.afterWrite_pos hd
  rw [State.entriesLeft, State.entriesLeft, hpos, Nat.sub_sub]
  rfl

theorem State.entriesLeft_resume_afterRead (hd : d ≤ s.entriesLeft) :
    ((s.afterRead d).resume b).entriesLeft = s.entriesLeft - d := by
  have hpos : ((s.afterRead d).resume b).regs.pos.toNat = s.regs.pos.toNat + d := State.afterRead_pos hd
  rw [State.entriesLeft, State.entriesLeft, hpos, Nat.sub_sub]
  rfl

include hboff

/-- The stream bits of the second part follow those of the first. -/
theorem State.streamBit_resume (k : Nat) : (s.resume b).streamBit k = s.streamBit (s.bitsOwed + k) := by
  have haddr : (s.resume b).regs.boff.toNat + k / 8 = s.regs.boff.toNat + (s.bitsOwed + k) / 8 := by
    rw [State.bitsOwed]
    exact (congrArg (· + k / 8) hboff).trans (by omega)
  rw [State.streamBit, State.streamBit, haddr, State.bitsOwed, Nat.mul_add_mod]
  rfl

/-- A visit of the second write is the visit of one longer write that has the first part's bits behind it. -/
theorem State.writeVisit_resume (w : WriteWalk) :
    s.writeVisit { w with k := s.bitsOwed + w.k } =
      { ((s.afterWrite d).resume b).writeVisit w with
        k := s.bitsOwed + (((s.afterWrite d).resume b).writeVisit w).k } := by
  obtain ⟨hc, hvisit⟩ | ⟨hc, hvisit⟩ := ((s.afterWrite d).resume b).writeVisit_cases w
  · rw [hvisit]
    exact if_neg (Bool.eq_false_iff.1 hc)
  · rw [hvisit, State.streamBit_resume (s := s.afterWrite d) hboff]
    exact if_pos hc

/-- After a first part that moved all its bits, the visits of the second write are the next ones of one longer write. -/
theorem State.writeIter_add (hd : d ≤ s.entriesLeft) (hk : (s.writeIter d).k = s.bitsOwed) :
    s.writeIter (d + e) =
      { ((s.afterWrite d).resume b).writeIter e with
        k := s.bitsOwed + (((s.afterWrite d).resume b).writeIter e).k } := by
  induction e with
  | zero =>
    have hpos : (s.afterWrite d).regs.pos.toNat = (s.writeIter d).pos := by
      rw [State.afterWrite_pos hd, State.writeIter_pos]
    simp only [State.writeIter, Nat.add_zero, ← hk, State.resume, hpos]
    rfl
  | succ e ih => rw [← Nat.add_assoc, State.writeIter, State.writeIter, ih, State.writeVisit_resume hboff]

/-- Two writes in a row stop where one longer write does and leave its COEF: either the first moved all its bits, or it
reached the end of the sequence and the second visits nothing. -/
theorem State.writes_append {d₂ : Nat} (h : StopsAfter s.entriesLeft s.bitsOwed (fun e => (s.writeIter e).k) d)
    (h₂ : StopsAfter ((s.afterWrite d).resume b).entriesLeft ((s.afterWrite d).resume b).bitsOwed
      (fun e => (((s.afterWrite d).resume b).writeIter e).k) d₂) :
    StopsAfter s.entriesLeft (s.bitsOwed + 8 * b.toNat) (fun e => (s.writeIter e).k) (d + d₂) ∧
    (s.writeIter (d + d₂)).coef = (((s.afterWrite d).resume b).writeIter d₂).coef := by
  rw [State.entriesLeft_resume_afterWrite h.le_left] at h₂
  refine ⟨h.append h₂ fun hk e => by rw [State.writeIter_add hboff h.le_left hk], ?_⟩
  obtain hd | hd := Nat.lt_or_eq_of_le h.le_left
  · rw [State.writeIter_add hboff h.le_left (h.count_eq hd)]
  · obtain rfl : d₂ = 0 := by have := h₂.le_left; omega
    rfl

/-- A visit of the second read is the visit of one longer read that has the first part's whole bytes behind it. -/
theorem State.readVisit_resume (w : ReadWalk) :
    s.readVisit { w with k := s.bitsOwed + w.k } =
      { ((s.afterRead d).resume b).readVisit w with
        k := s.bitsOwed + (((s.afterRead d).resume b).readVisit w).k } := by
  have howed : s.bitsOwed = 8 * s.regs.bcnt.toNat := rfl
  have hmod : (s.bitsOwed + w.k + 1) % 8 = (w.k + 1) % 8 := by omega
  obtain ⟨hc, hvisit⟩ | ⟨hc, hm, hvisit⟩ | ⟨hc, hm, hvisit⟩ := ((s.afterRead d).resume b).readVisit_cases w <;>
    rw [hvisit]
  · exact if_neg (Bool.eq_false_iff.1 hc)
  · exact (if_pos hc).trans (if_neg (hmod ▸ hm))
  · have haddr : ((s.afterRead d).resume b).regs.boff.toNat + (w.k + 1) / 8 - 1 =
        s.regs.boff.toNat + (s.bitsOwed + w.k + 1) / 8 - 1 :=
      (congrArg (· + (w.k + 1) / 8 - 1) hboff).trans (by omega)
    rw [haddr]
    exact (if_pos hc).trans (if_pos (hmod ▸ hm))

/-- After a first part that moved all its bits, the visits of the second read are the next ones of one longer read. -/
theorem State.readIter_add (hd : d ≤ s.entriesLeft) (hk : s.carriersWithin d = s.bitsOwed) :
    s.readIter (d + e) =
      { ((s.afterRead d).resume b).readIter e with
        k := s.bitsOwed + (((s.afterRead d).resume b).readIter e).k } := by
  induction e with
  | zero =>
    have hpos : (s.afterRead d).regs.pos.toNat = (s.readIter d).pos := by
      rw [State.afterRead_pos hd, State.readIter_pos]
    have hacc := s.readIter_acc (d := d) (by rw [hk, State.bitsOwed]; omega)
    simp only [State.readIter, Nat.add_zero, ← hk, State.resume, hpos, ← hacc, ← s.readIter_k]
    rfl
  | succ e ih => rw [← Nat.add_assoc, State.readIter, State.readIter, ih, State.readVisit_resume hboff]

/-- Two reads in a row stop where one longer read does and leave its FB, as two writes do. -/
theorem State.reads_append {d₂ : Nat} (h : StopsAfter s.entriesLeft s.bitsOwed s.carriersWithin d)
    (h₂ : StopsAfter ((s.afterRead d).resume b).entriesLeft ((s.afterRead d).resume b).bitsOwed
      ((s.afterRead d).resume b).carriersWithin d₂) :
    StopsAfter s.entriesLeft (s.bitsOwed + 8 * b.toNat) s.carriersWithin (d + d₂) ∧
    (s.readIter (d + d₂)).fb = (((s.afterRead d).resume b).readIter d₂).fb := by
  rw [State.entriesLeft_resume_afterRead h.le_left] at h₂
  refine ⟨h.append h₂ fun hk e => ?_, ?_⟩
  · rw [← s.readIter_k, State.readIter_add hboff h.le_left hk, State.readIter_k]
  obtain hd | hd := Nat.lt_or_eq_of_le h.le_left
  · rw [State.readIter_add hboff h.le_left (h.count_eq hd)]
  · obtain rfl : d₂ = 0 := by have := h₂.le_left; omega
    rfl

end Resumed

/-- The ranges of the two parts and of the whole lie in FB and wrap nowhere. -/
theorem split_ranges {p : Params} {boff a b : Word} (hp : p.wellFormed = true)
    (h : boff.toNat + a.toNat + b.toNat ≤ p.fbcap) :
    (boff + a).toNat = boff.toNat + a.toNat ∧ (a + b).toNat = a.toNat + b.toNat := by
  simp only [Params.wellFormed, Bool.and_eq_true, decide_eq_true_eq] at hp
  exact ⟨BitVec.toNat_add_of_lt (by omega), BitVec.toNat_add_of_lt (by omega)⟩

/-- A transfer of `a + b` bytes owes the bits of both parts. -/
theorem State.bitsOwed_withBcnt_add (s : State) {a b : Word} (h : (a + b).toNat = a.toNat + b.toNat) :
    (s.withBcnt (a + b)).bitsOwed = (s.withBcnt a).bitsOwed + 8 * b.toNat :=
  (congrArg (8 * ·) h).trans (Nat.mul_add _ _ _)

/-- Settles O38: the two writes and the one stop after equally many visits, with the same COEF. -/
theorem splitWriteContinues : Obligations.SplitWriteContinues := by
  intro s t u w a b hp hsv _ hfits ht hu hw
  obtain ⟨hboff, hsum⟩ := split_ranges hp hfits
  have hfitsWhole : s.regs.boff.toNat + (a + b).toNat ≤ s.params.fbcap := by omega
  have hfitsSecond : (s.regs.boff + a).toNat + b.toNat ≤ s.params.fbcap := by omega
  obtain ⟨d, hstop, hexec⟩ := exec_bpWrite_stops (s := s.withBcnt a) hsv (Nat.le_of_add_right_le hfits)
  cases hexec.symm.trans ht
  obtain ⟨d₂, hstop₂, hexec₂⟩ := exec_bpWrite_stops (s := ((s.withBcnt a).afterWrite d).resume b)
    ((svOf_withErr _ _).trans hsv) hfitsSecond
  cases hexec₂.symm.trans hu
  obtain ⟨d₃, hstop₃, hexec₃⟩ := exec_bpWrite_stops (s := s.withBcnt (a + b)) hsv hfitsWhole
  cases hexec₃.symm.trans hw
  obtain ⟨happend, hcoef⟩ := State.writes_append (s := s.withBcnt a) hboff hstop hstop₂
  simp only [State.writeIter_withBcnt, State.bitsOwed_withBcnt_add s hsum] at happend hcoef hstop₃
  obtain rfl : d₃ = d + d₂ := hstop₃.unique happend
  refine ⟨fun i => ?_, BitVec.eq_of_toNat_eq ?_⟩
  · rw [State.afterWrite_coefAt, State.afterWrite_coefAt, State.writeIter_withBcnt, hcoef]
    rfl
  · rw [State.afterWrite_pos hstop₂.le_left, State.afterWrite_pos (s := s.withBcnt (a + b)) hstop₃.le_left]
    exact (congrArg (· + d₂) (State.afterWrite_pos hstop.le_left)).trans (Nat.add_assoc _ _ _)

/-- Settles O39: the two reads and the one stop after equally many visits, with the same FB. -/
theorem splitReadContinues : Obligations.SplitReadContinues := by
  intro s t u w a b hp hsv _ hfits ht hu hw
  obtain ⟨hboff, hsum⟩ := split_ranges hp hfits
  have hfitsWhole : s.regs.boff.toNat + (a + b).toNat ≤ s.params.fbcap := by omega
  have hfitsSecond : (s.regs.boff + a).toNat + b.toNat ≤ s.params.fbcap := by omega
  obtain ⟨d, hstop, hexec⟩ := exec_bpRead_stops (s := s.withBcnt a) hsv (Nat.le_of_add_right_le hfits)
  cases hexec.symm.trans ht
  obtain ⟨d₂, hstop₂, hexec₂⟩ := exec_bpRead_stops (s := ((s.withBcnt a).afterRead d).resume b)
    ((svOf_withErr _ _).trans hsv) hfitsSecond
  cases hexec₂.symm.trans hu
  obtain ⟨d₃, hstop₃, hexec₃⟩ := exec_bpRead_stops (s := s.withBcnt (a + b)) hsv hfitsWhole
  cases hexec₃.symm.trans hw
  obtain ⟨happend, hfb⟩ := State.reads_append (s := s.withBcnt a) hboff hstop hstop₂
  rw [State.bitsOwed_withBcnt_add s hsum] at hstop₃
  obtain rfl : d₃ = d + d₂ := hstop₃.unique happend
  refine ⟨fun x => ?_, BitVec.eq_of_toNat_eq ?_⟩
  · rw [State.afterRead_fbAt, State.afterRead_fbAt, ← hfb, State.readIter_withBcnt, State.readIter_withBcnt]
    rfl
  · rw [State.afterRead_pos hstop₂.le_left, State.afterRead_pos (s := s.withBcnt (a + b)) hstop₃.le_left]
    exact (congrArg (· + d₂) (State.afterRead_pos hstop.le_left)).trans (Nat.add_assoc _ _ _)

end Sys2Proof.Machine
end

section
/-! Family 43_framer.md: the checksum, the header FRM.BUILD leaves, and what FRM.PARSE and FRM.CHECK find of it. -/

namespace Sys2Proof.Machine

/-- Settles O47: five closed values, each computed byte by byte as the definition says. -/
theorem checksumCheckValues : Obligations.ChecksumCheckValues :=
  ⟨by decide, by decide, by decide, by decide +kernel, by decide +kernel⟩

/-! ## FRM.BUILD -/

/-- The state a FRM.BUILD on a legal length leaves (43_framer.md R181). -/
def State.afterBuild (s : State) : State :=
  { s with
    fb := putNumber (putNumber s.fb 0 4 s.regs.len.toNat) 4 4 (crc32 (s.payload s.regs.len.toNat)).toNat
    regs := { s.regs with
      crc := crc32 (s.payload s.regs.len.toNat), status := withErr s.regs.status 0#8 } }

/-- FRM.BUILD on a legal length (43_framer.md R183). -/
theorem exec_frmBuild_legal {s : State} (hpos : 1 ≤ s.regs.len.toNat) (hmax : s.regs.len.toNat ≤ s.maxEff) :
    exec .frmBuild s = .next s.afterBuild := by
  rw [exec_frmBuild, if_neg (by omega), if_neg (by omega)]
  rfl

/-- The bytes of FB after FRM.BUILD: the two header fields, and from the payload on what was there. -/
theorem State.fbAt_afterBuild (s : State) (a : Nat) :
    s.afterBuild.fbAt a =
      if a < 4 then BitVec.ofNat 8 (s.regs.len.toNat / 256 ^ (3 - a))
      else if a < 8 then BitVec.ofNat 8 (s.afterBuild.regs.crc.toNat / 256 ^ (7 - a)) else s.fbAt a :=
  get_header _ _ _ _ _

/-- Byte `j` of a word in big-endian order, most significant first, as a field of the word (20_memory.md R60). -/
theorem ofNat_div_eq_extractLsb' (v : Word) {j : Nat} (hj : j < 4) :
    BitVec.ofNat 8 (v.toNat / 256 ^ (3 - j)) = v.extractLsb' (24 - 8 * j) 8 := by
  rw [BitVec.extractLsb', Nat.shiftRight_eq_div_pow, show 24 - 8 * j = 8 * (3 - j) by omega, Nat.pow_mul]

/-- Settles O43, from the bytes of the two header fields. -/
theorem frmBuildWritesHeader : Obligations.FrmBuildWritesHeader := by
  rintro s _ hpos hmax rfl
  refine ⟨_, exec_frmBuild_legal hpos hmax, ?_, fun j hj => ?_, fun j hj => ?_, fun a ha => ?_⟩
  · rw [← withErr_zero]
    rfl
  · rw [State.fbAt_afterBuild, if_pos hj, ofNat_div_eq_extractLsb' _ hj]
  · rw [State.fbAt_afterBuild, if_neg (by omega), if_pos (by omega), show 7 - (4 + j) = 3 - j by omega,
      ofNat_div_eq_extractLsb' _ hj]
    rfl
  · rw [State.fbAt_afterBuild, if_neg (by omega), if_neg (by omega)]

/-! ## FRM.BUILD, FRM.PARSE and FRM.CHECK in a row -/

/-- The length field reads back as LEN. -/
theorem State.lengthField_afterBuild (s : State) : s.afterBuild.fbNumber 0 4 = s.regs.len.toNat := by
  refine (s.afterBuild.fbNumber_of_bytes 0 4 s.regs.len.toNat fun i hi => ?_).trans
    (Nat.mod_eq_of_lt s.regs.len.isLt)
  rw [State.fbAt_afterBuild, if_pos (by omega), Nat.zero_add]

/-- The checksum field reads back as CRC. -/
theorem State.checksumField_afterBuild (s : State) : s.afterBuild.fbNumber 4 4 = s.afterBuild.regs.crc.toNat := by
  refine (s.afterBuild.fbNumber_of_bytes 4 4 s.afterBuild.regs.crc.toNat fun i hi => ?_).trans
    (Nat.mod_eq_of_lt s.afterBuild.regs.crc.isLt)
  rw [State.fbAt_afterBuild, if_neg (by omega), if_pos (by omega), show 7 - (4 + i) = 4 - 1 - i by omega]

/-- FRM.BUILD leaves the payload, so CRC is the checksum of the payload after it too. -/
theorem State.crc32_payload_afterBuild (s : State) :
    crc32 (s.afterBuild.payload s.regs.len.toNat) = s.afterBuild.regs.crc := by
  rw [s.afterBuild.payload_congr s _ fun i _ => by rw [State.fbAt_afterBuild, if_neg (by omega), if_neg (by omega)]]
  rfl

/-- FRM.PARSE on a header whose fields hold a legal length and a checksum (43_framer.md R185). -/
theorem exec_frmParse_legal {s : State} {length checksum : Word} (hlength : s.fbNumber 0 4 = length.toNat)
    (hchecksum : s.fbNumber 4 4 = checksum.toNat) (hpos : 1 ≤ length.toNat) (hmax : length.toNat ≤ s.maxEff) :
    exec .frmParse s = .next { s with regs := { s.regs with
      len := length, hcrc := checksum, status := withErr s.regs.status 0#8 } } := by
  rw [exec_frmParse, hlength, hchecksum, if_neg (by omega)]
  simp only [BitVec.ofNat_toNat, BitVec.setWidth_eq]

/-- FRM.CHECK on a payload in FB that has the checksum HCRC (43_framer.md R189). -/
theorem exec_frmCheck_match {s : State} (hfits : 8 + s.regs.len.toNat ≤ s.params.fbcap)
    (hcrc : crc32 (s.payload s.regs.len.toNat) = s.regs.hcrc) :
    exec .frmCheck s = .next { s with regs := { s.regs with
      crc := s.regs.hcrc, status := withErr (withV s.regs.status true) 0#8 } } := by
  rw [exec_frmCheck, if_pos hfits, if_pos hcrc, hcrc]

/-- Settles O48: a legal length fits FB, FRM.PARSE reads back both fields, and the payload is the one FRM.BUILD took its
checksum of. -/
theorem buildParseCheckAgree : Obligations.BuildParseCheckAgree := by
  intro s hpos hmax
  have hfits : 8 + s.regs.len.toNat ≤ s.params.fbcap := by omega
  refine ⟨_, _, _, exec_frmBuild_legal hpos hmax,
    exec_frmParse_legal s.lengthField_afterBuild s.checksumField_afterBuild hpos hmax,
    exec_frmCheck_match hfits s.crc32_payload_afterBuild,
    errOf_withErr _ _, errOf_withErr _ _, errOf_withErr _ _, rfl, rfl, rfl, ?_⟩
  rw [vOf_withErr, vOf_withV]

/-! ## FRM.CHECK -/

/-- Settles O49: whether the payload fits and has the checksum HCRC says nothing of KEY, and no outcome writes KEY. -/
theorem frmCheckIndependentOfKey : Obligations.FrmCheckIndependentOfKey := by
  intro s key
  refine ⟨_, exec_frmCheck s, (exec_frmCheck _).trans (congrArg Host.Outcome.next ?_)⟩
  by_cases hfits : 8 + s.regs.len.toNat ≤ s.params.fbcap
  · by_cases hcrc : crc32 (s.payload s.regs.len.toNat) = s.regs.hcrc
    · rw [if_pos hfits, if_pos hcrc, if_pos hfits]
      exact if_pos hcrc
    · rw [if_pos hfits, if_neg hcrc, if_pos hfits]
      exact if_neg hcrc
  · rw [if_neg hfits, if_neg hfits]

end Sys2Proof.Machine
end

section
/-! Family 44_obfuscator.md: OBF.XOR undoes itself. -/

namespace Sys2Proof.Machine

/-- The state an OBF.XOR on a payload that lies in FB leaves (44_obfuscator.md R200). -/
def State.afterObfXor (s : State) : State :=
  { s with
    fb := s.xorPayload s.regs.len.toNat
    regs := { s.regs with status := withErr s.regs.status 0#8 } }

/-- OBF.XOR on a payload that lies in FB (44_obfuscator.md R200). -/
theorem exec_obfXor_fits {s : State} (hfits : 8 + s.regs.len.toNat ≤ s.params.fbcap) :
    exec .obfXor s = .next s.afterObfXor := by
  rw [exec_obfXor, if_pos hfits]
  rfl

/-- OBF.XOR on a payload that does not lie in FB (44_obfuscator.md R200). -/
theorem exec_obfXor_misfits {s : State} (hmisfits : ¬ 8 + s.regs.len.toNat ≤ s.params.fbcap) :
    exec .obfXor s = .next (s.setErr 10#8) := by
  rw [exec_obfXor, if_neg hmisfits]

@[simp] theorem State.afterObfXor_len (s : State) : s.afterObfXor.regs.len = s.regs.len := rfl
@[simp] theorem State.afterObfXor_key (s : State) : s.afterObfXor.regs.key = s.regs.key := rfl

/-- The bytes of FB after OBF.XOR: the payload combined with the keystream, the rest as it was. -/
theorem State.fbAt_afterObfXor (s : State) (a : Nat) :
    s.afterObfXor.fbAt a =
      if 8 ≤ a ∧ a < 8 + s.regs.len.toNat then s.fbAt a ^^^ keystream s.regs.key (a - 8) else s.fbAt a :=
  s.get_xorPayload s.regs.len.toNat a

/-- KEY and LEN are the same at the second command, so each payload byte meets the same keystream byte twice, and
`(x ^ k) ^ k = x` (44_obfuscator.md R202). -/
theorem State.fbAt_afterObfXor_twice (s : State) (a : Nat) : s.afterObfXor.afterObfXor.fbAt a = s.fbAt a := by
  rw [State.fbAt_afterObfXor, State.afterObfXor_len, State.afterObfXor_key, State.fbAt_afterObfXor]
  by_cases hpayload : 8 ≤ a ∧ a < 8 + s.regs.len.toNat
  · rw [if_pos hpayload, if_pos hpayload, BitVec.xor_assoc, BitVec.xor_self, BitVec.xor_zero]
  · rw [if_neg hpayload, if_neg hpayload]

/-- Settles O51: LEN and FBCAP are the same at the second command, so both commands combine the payload with the keystream
or both leave FB alone. -/
theorem obfXorTwiceRestores : Obligations.ObfXorTwiceRestores := by
  intro s
  by_cases hfits : 8 + s.regs.len.toNat ≤ s.params.fbcap
  · exact ⟨_, _, exec_obfXor_fits hfits, exec_obfXor_fits (s := s.afterObfXor) hfits, s.fbAt_afterObfXor_twice⟩
  · exact ⟨_, _, exec_obfXor_misfits hfits, exec_obfXor_misfits (s := s.setErr 10#8) hfits, fun a => by
      rw [State.setErr_fbAt, State.setErr_fbAt]⟩

end Sys2Proof.Machine
end

section
/-! Family 45_system.md: SYS.NOP, SYS.RESET, and SYS.RESET beside a hardware reset. -/

namespace Sys2Proof.Machine

/-- Settles O14: writing 0 into the ERR field is masking its eight bits off. -/
theorem sysNopClearsErrOnly : Obligations.SysNopClearsErrOnly :=
  ⟨decode_encode .sysNop, fun s => by
    rw [exec_sysNop, ← withErr_zero]
    rfl⟩

/-- Settles O15: the registers written are the reset values for the state's own capacities. -/
theorem sysResetRestoresEveryRegister : Obligations.SysResetRestoresEveryRegister :=
  ⟨decode_encode .sysReset, exec_sysReset⟩

/-- Settles O17: the reset values depend on the capacities alone, which the step that takes the reset off the queue keeps. -/
theorem hardwareResetRegistersLikeSysReset : Obligations.HardwareResetRegistersLikeSysReset := by
  intro s rest hin
  refine ⟨_, _, step_hardwareReset s rest hin, exec_sysReset s, ?_⟩
  simp only [State.hardwareReset_regs, State.hardwareReset_params, State.hardwareReset_inputs,
    State.hardwareReset_replies, State.hardwareReset_coef, State.hardwareReset_seq, State.hardwareReset_fb,
    State.hardwareReset_era, and_self]

end Sys2Proof.Machine
end

section
/-! Family 46_host_sequences.md: the host's capacity figure, and that it decides a write from the start of the sequence. -/

namespace Sys2Proof.Machine

/-! ## BP.WRITE from POS = 0 -/

/-- A sequence that lists the AC positions below `n` is a rearrangement of the candidate list (41_sequencer.md R137). -/
theorem ListsAcPositions.perm_candidates {l : List Nat} {n : Nat} (h : ListsAcPositions l n) : l.Perm (candidates n) :=
  (List.perm_ext_iff_of_nodup h.1 (nodup_candidates n)).2 fun i => (h.2 i).trans (mem_candidates n i).symm

/-- From POS = 0 the carriers ahead are the carriers among the coefficients that the sequence names. -/
theorem State.carriersAhead_eq_countP {s : State} (hpos : s.regs.pos = 0#32) :
    s.carriersAhead = s.sequenceEntries.countP fun i => isCarrier s.regs.minmag (s.coefAt i) := by
  have hstart : s.regs.pos.toNat = 0 := by rw [hpos]; rfl
  rw [State.carriersAhead, State.carriersWithin, State.sequenceEntries, List.countP_map, List.countP_eq_length_filter,
    hstart, Nat.sub_zero]
  simp only [Nat.zero_add]
  rfl

/-- The carriers among the AC positions below `n`, with both tests written out (46_host_sequences.md R226). -/
theorem countP_candidates (s : State) (n : Nat) :
    (candidates n).countP (fun i => isCarrier s.regs.minmag (s.coefAt i)) =
      ((List.range n).filter
        (fun i => i % 64 ≠ 0 ∧ s.regs.minmag.toNat ≤ (s.coefAt i).toInt.natAbs)).length := by
  rw [candidates, List.countP_filter, List.countP_eq_length_filter]
  refine congrArg List.length (List.filter_congr fun i _ => ?_)
  rw [Bool.eq_iff_iff, Bool.and_eq_true, isCarrier_iff, decide_eq_true_iff, decide_eq_true_iff, and_comm]
  rfl

/-- Over a sequence without repeats BP.WRITE succeeds exactly when the carriers ahead are as many as the bits it owes
(42_bitpacker.md R155, R157). -/
theorem exec_bpWrite_succeeds_iff {s : State} (hsv : svOf s.regs.status = true) (hnodup : s.sequenceEntries.Nodup)
    (hrange : s.regs.boff.toNat + s.regs.bcnt.toNat ≤ s.params.fbcap) :
    ∃ t, exec .bpWrite s = .next t ∧ (errOf t.regs.status = 0#8 ↔ s.bitsOwed ≤ s.carriersAhead) := by
  obtain ⟨d, hstop, hexec⟩ := exec_bpWrite_stops hsv hrange
  have hk : ∀ e, e ≤ d → s.carriersWithin e = (s.writeIter e).k := fun e he =>
    (s.writeIter_distinct e (s.entriesDistinct_of_nodup hnodup (Nat.le_trans he hstop.le_left))).1.symm
  have hmoved : (s.writeIter d).k = min s.bitsOwed s.carriersAhead :=
    (hk d (Nat.le_refl d)).symm.trans (State.carriersWithin_eq_min (hstop.congr hk))
  refine ⟨_, hexec, (s.transferRegs_succeeds_iff d _).trans ?_⟩
  rw [hmoved, Nat.le_min, and_iff_right (Nat.le_refl _)]

/-- Settles O41: the write moves one bit per carrier ahead, and from POS = 0 these are the carriers among the AC positions
below `n`, in whatever order the sequence lists them. -/
theorem capacityDecidesWriteFromStart : Obligations.CapacityDecidesWriteFromStart := by
  intro s n _ hsv hlists hpos hrange
  rw [← countP_candidates, ← hlists.perm_candidates.countP_eq, ← State.carriersAhead_eq_countP hpos]
  exact exec_bpWrite_succeeds_iff hsv hlists.1 hrange

/-! ## The capacity figure -/

/-- A coefficient that is a carrier at a threshold is one at every smaller threshold, so the count never grows with the
threshold (46_host_sequences.md R227). -/
theorem carrierCount_antitone (coefs : List Coef) {t u : Word} (h : t.toNat ≤ u.toNat) :
    carrierCount coefs u ≤ carrierCount coefs t := by
  rw [carrierCount_eq, carrierCount_eq]
  refine (List.monotone_filter_right _ fun i hi => ?_).length_le
  obtain ⟨hac, hcarrier⟩ := of_decide_eq_true hi
  exact decide_eq_true ⟨hac, Nat.le_trans h hcarrier⟩

/-- The header takes 64 of the bits (46_host_sequences.md R226). -/
theorem maxMessageSize_eq (coefs : List Coef) (t : Word) : maxMessageSize coefs t = (carrierCount coefs t - 64) / 8 := rfl

/-- Settles O42: the figure is a monotone function of the host's count. -/
theorem capacityFallsWithThreshold : Obligations.CapacityFallsWithThreshold := by
  intro coefs t
  refine ⟨fun count hcount => ?_, fun u htu => ?_⟩
  · obtain rfl : carrierCount coefs t = count := (carrierCount_eq coefs t).trans hcount.symm
    refine ⟨rfl, fun hfew => ?_, fun _ => maxMessageSize_eq coefs t⟩
    rw [maxMessageSize_eq, Nat.sub_eq_zero_of_le (Nat.le_of_lt hfew), Nat.zero_div]
  · rw [maxMessageSize_eq, maxMessageSize_eq]
    exact Nat.div_le_div_right (Nat.sub_le_sub_right (carrierCount_antitone coefs htu) 64)

end Sys2Proof.Machine
end

section
/-! Family 60_exceptions.md: the causes of each error and the state it leaves, and the codes each command can leave. -/

namespace Sys2Proof.Machine

/-! ## The codes each command can leave -/

/-- A transfer that ran leaves 3 when it still owes a bit and 0 otherwise, two of the four codes of a transfer
(42_bitpacker.md R157; 60_exceptions.md R241). -/
theorem State.errOf_transferRegs_mem (s : State) (d k : Nat) :
    errOf (s.transferRegs d k).status ∈ [0#8, 3#8, 9#8, 10#8] := by
  rw [State.transferRegs, errOf_withErr]
  split <;> decide

/-- Settles O54: every way a command can end writes ERR last, with one of the codes listed for it. -/
theorem errorCodesByCommand : Obligations.ErrorCodesByCommand := by
  intro i s t h
  have hc := exec_cases i s t h
  cases i with
  | sysNop | bpRewind => cases hc; simp
  | sysReset => cases hc; exact List.mem_singleton.2 rfl
  | seqGen => obtain ⟨-, rfl⟩ | ⟨-, rfl⟩ := hc <;> simp
  | bpWrite | bpRead =>
    obtain (rfl | rfl) | ⟨-, -, d, -, -, rfl⟩ := hc
    · simp
    · simp
    · exact s.errOf_transferRegs_mem d _
  | frmBuild => obtain (rfl | rfl) | ⟨-, -, rfl⟩ := hc <;> simp
  | frmParse => obtain rfl | rfl := hc <;> simp
  | frmCheck => obtain rfl | rfl | rfl := hc <;> simp
  | obfXor => obtain rfl | ⟨-, rfl⟩ := hc <;> simp

/-! ## IllegalCommand -/

/-- A word that is no command's word decodes to none (30_encoding.md R94). -/
theorem decode_eq_error {w : Word} (h : ∀ i, w ≠ encode i) : ∃ e, decode w = .error e := by
  cases hdec : decode w with
  | ok i => exact absurd ((decode_eq_ok_iff w i).1 hdec) (h i)
  | error e => exact ⟨e, rfl⟩

/-- Issuing a word that is no command's word leaves ERR = 8 (60_exceptions.md R248). -/
theorem issue_illegal {w : Word} (s : State) (h : ∀ i, w ≠ encode i) : issue w s = .next (s.setErr 8#8) := by
  obtain ⟨e, hdec⟩ := decode_eq_error h
  rw [issue, hdec]
  rfl

/-- The ten legal command words (30_encoding.md R93). -/
theorem encode_mem_legalWords (i : Instr) :
    encode i ∈ [0x00000000#32, 0x00000001#32, 0x00000010#32, 0x00000020#32, 0x00000021#32, 0x00000022#32,
      0x00000030#32, 0x00000031#32, 0x00000032#32, 0x00000040#32] := by
  cases i <;> decide

/-- Settles O3: a word outside the list of ten is no command's word, so the write to CMD only raises. -/
theorem illegalCommandWordSetsOnlyErr : Obligations.IllegalCommandWordSetsOnlyErr := by
  intro s rest w hin hw
  have hillegal : ∀ i, w ≠ encode i := fun i hi => hw (hi ▸ encode_mem_legalWords i)
  rw [step_host s _ rest hin, serve_command, issue_illegal _ hillegal]
  rfl

/-! ## NoSequence and BadOperand -/

/-- A transfer without a sequence does not start (42_bitpacker.md R158). -/
theorem State.transferError_noSequence {s : State} (hsv : svOf s.regs.status = false) :
    s.transferError = some .noSequence := by
  simp [State.transferError, hsv]

/-- A transfer whose bytes do not lie in FB does not start (42_bitpacker.md R158). -/
theorem State.transferError_badOperand {s : State} (hsv : svOf s.regs.status = true)
    (hrange : s.params.fbcap < s.regs.boff.toNat + s.regs.bcnt.toNat) : s.transferError = some .badOperand := by
  simp [State.transferError, State.bitRangeFits, hsv, hrange]

/-- Settles O19: the check of SV ends both transfers before they read anything else. -/
theorem transferWithoutSequenceSetsOnlyErr : Obligations.TransferWithoutSequenceSetsOnlyErr := fun s hsv =>
  have herror := State.transferError_noSequence hsv
  ⟨exec_bpWrite_error s _ herror, exec_bpRead_error s _ herror⟩

/-- FRM.CHECK on a payload that does not lie in FB clears V (60_exceptions.md R250). -/
theorem exec_frmCheck_misfits {s : State} (hmisfits : s.params.fbcap < 8 + s.regs.len.toNat) :
    exec .frmCheck s = .next { s with regs := { s.regs with status := withErr (withV s.regs.status false) 10#8 } } := by
  rw [exec_frmCheck, if_neg (Nat.not_le.2 hmisfits)]

/-- Settles O18: each operand check ends its command before it changes anything, and FRM.BUILD has no such check. -/
theorem badOperandLeavesOnlyErr : Obligations.BadOperandLeavesOnlyErr := by
  refine fun s => ⟨exec_seqGen_badOperand s, fun hsv hrange => ?_, fun hmisfits => ⟨?_, ?_⟩, fun t h hbad => ?_⟩
  · have herror := State.transferError_badOperand hsv hrange
    exact ⟨exec_bpWrite_error s _ herror, exec_bpRead_error s _ herror⟩
  · rw [exec_frmCheck_misfits hmisfits, withErr_withV_false]
    rfl
  · exact exec_obfXor_misfits (Nat.not_le.2 hmisfits)
  · have hcode : errOf t.regs.status ∈ [0#8, 1#8, 2#8] := errorCodesByCommand .frmBuild s t h
    rw [hbad] at hcode
    exact absurd hcode (by decide)

/-! ## The framer's errors -/

/-- Settles O44: FRM.BUILD checks for an empty payload first and for one above MAXEFF next. -/
theorem frmBuildRejectsEmptyAndTooLong : Obligations.FrmBuildRejectsEmptyAndTooLong := by
  refine fun s => ⟨fun hempty => ?_, fun hlen hlong => ?_⟩
  · have hzero : s.regs.len.toNat = 0 := congrArg BitVec.toNat hempty
    rw [exec_frmBuild, if_pos hzero]
    rfl
  · have hpos : ¬ s.regs.len.toNat = 0 := fun h => hlen (BitVec.eq_of_toNat_eq h)
    rw [exec_frmBuild, if_neg hpos, State.maxEff, if_pos hlong]
    rfl

/-- FRM.CHECK on a payload in FB that has not the checksum HCRC (60_exceptions.md R246). -/
theorem exec_frmCheck_mismatch {s : State} (hfits : 8 + s.regs.len.toNat ≤ s.params.fbcap)
    (hcrc : crc32 (s.payload s.regs.len.toNat) ≠ s.regs.hcrc) :
    exec .frmCheck s = .next { s with regs := { s.regs with
      crc := crc32 (s.payload s.regs.len.toNat), status := withErr (withV s.regs.status false) 5#8 } } := by
  rw [exec_frmCheck, if_pos hfits, if_neg hcrc]

/-- Settles O46: the two outcomes of the comparison, with the fields of STATUS as masks. -/
theorem frmCheckComparesChecksum : Obligations.FrmCheckComparesChecksum := by
  rintro s _ hfits rfl
  refine ⟨fun hmatch => ?_, fun hmismatch => ?_⟩
  · rw [exec_frmCheck_match hfits hmatch, withErr_withV_true, hmatch]
  · rw [exec_frmCheck_mismatch hfits hmismatch, withErr_withV_false]
    rfl

end Sys2Proof.Machine
end
